-- ==== Sys2Proof/Word.lean ====
section
/-! DEFINITION. The words the block moves and the values the host holds: plain data types, and nothing that computes. -/

namespace Sys2Proof

/-- The register word, and the width of `reg_in`, `reg_out` and every ENCODE field input (00_scope.md R4, R5; 10_state.md R12). -/
abbrev RegWord := BitVec 32

/-- A 4-bit field output (10_state.md R16). -/
abbrev Nibble := BitVec 4

/-- An 8-bit field output (10_state.md R16), and the unit in which a request or a stored word is written out in bytes. -/
abbrev Byte := BitVec 8

/-- A text is "a finite string of characters" (41_host_text.md, Host values). -/
abbrev Text := List Char

/-- The five fields of the register word (00_scope.md R4), in the source's order. -/
inductive FieldName where
  | presc
  | scldel
  | sdadel
  | sclh
  | scll
  deriving DecidableEq, Repr, Inhabited

/-- The DECODE result: the five field outputs at the fields' own widths (10_state.md R12, R16, R17). -/
structure Fields where
  presc  : Nibble
  scldel : Nibble
  sdadel : Nibble
  sclh   : Byte
  scll   : Byte
  deriving DecidableEq, Repr, Inhabited

/-- A request: the operation selector and every input port (30_encoding.md R32; 10_state.md R12).
Every request carries every field; one that the selected operation does not use is "don't care". -/
structure Request where
  op       : BitVec 1
  regIn    : RegWord
  prescIn  : RegWord
  scldelIn : RegWord
  sdadelIn : RegWord
  sclhIn   : RegWord
  scllIn   : RegWord
  deriving DecidableEq, Repr, Inhabited

/-- The response of one operation (10_state.md R13): the five field outputs of a DECODE, or `reg_out` of an ENCODE.
The outputs of the operation not selected are not part of it and get no value (93_implementation_defined.md I3). -/
inductive Response where
  | fields (f : Fields)
  | word (w : RegWord)
  deriving DecidableEq, Repr

/-- A host field value: "whatever the host holds for a field: a host integer, or something that is not one"
(41_host_text.md, Host values; 92_eei_decisions.md D10). Log entry 12. -/
inductive HostValue where
  /-- A finite number by its mathematical value; a host integer is one whose denominator is 1. -/
  | number (q : Rat)
  /-- Not a number. -/
  | nan
  /-- An infinity, negative or positive. -/
  | infinity (negative : Bool)
  /-- A text, of digits or not. -/
  | text (t : Text)
  /-- A truth value. -/
  | boolean (b : Bool)
  /-- The field is missing. -/
  | missing
  /-- Anything else a host may hold, written out; it is no number. -/
  | other (description : Text)
  deriving DecidableEq, Repr, Inhabited

/-- The host's record of five field values: the argument of encode_text, and the fields the host shows
(41_host_text.md R53, R54, R55; 10_state.md R17). -/
structure HostFields where
  presc  : HostValue
  scldel : HostValue
  sdadel : HostValue
  sclh   : HostValue
  scll   : HostValue
  deriving DecidableEq, Repr, Inhabited

/-- The two errors of the source with what each records (60_exceptions.md R58, R60, R61). -/
inductive HostError where
  /-- Raised by PARSE_HEX; records the input text. -/
  | parseError (s : Text)
  /-- Raised by TO_FIELD_WORD; records the field's name and its value. -/
  | invalidField (field : FieldName) (value : HostValue)
  deriving DecidableEq, Repr

/-- What PARSE_HEX does with a value of 2^32 or more: the parameter WIDE_HEX_POLICY (41_host_text.md R49; 00_scope.md R5). -/
inductive WideHexPolicy where
  | ignore
  | reject
  deriving DecidableEq, Repr, Inhabited

/-- The order of a word's bytes in a platform's memory: the parameter PLATFORM_BYTE_ORDER (20_memory.md R25). -/
inductive ByteOrder where
  | little
  | big
  deriving DecidableEq, Repr, Inhabited

end Sys2Proof
end

