-- ==== Sys2Proof/Config.lean ====
section
/-! DEFINITION. What an implementation fixes, and the values the spec leaves open. A free value is a constant with no body:
no proof can see what it is, so a claim about it holds whatever it is. -/

namespace Sys2Proof

/-- `REG_W`: the width of the register word (00_scope.md R5). -/
def Config.regW : Nat := 32

/-- `FIELD_IN_W`: the width of each ENCODE field input port (00_scope.md R5). -/
def Config.fieldInW : Nat := 32

/-- `OP_W`: the width of the operation selector (00_scope.md R5). -/
def Config.opW : Nat := 1

/-- The number of bits of a request: 1 + 32 + 5 x 32 (30_encoding.md R32). -/
def Config.requestW : Nat := Config.opW + Config.regW + 5 * Config.fieldInW

/-- The default of WIDE_HEX_POLICY (41_host_text.md R49). The parameter itself stands in State, so that a claim over
every state covers both of its values. Log entry 5. -/
def Config.defaultWideHexPolicy : WideHexPolicy := .ignore

/-- PLATFORM_BYTE_ORDER (20_memory.md R25), open; no rule reads it and no step of the model does. Log entry 17. -/
opaque Config.platformByteOrder : ByteOrder

/-- The text the host shows before any text was shown: "any value" (93_implementation_defined.md I7). Log entry 6. -/
opaque Config.initialText : Text

/-- The fields the host shows before any text parsed: "any value" (93_implementation_defined.md I7). Log entry 6. -/
opaque Config.initialFields : HostFields

/-- What the host drives on the input ports that the operation it requests does not use: "don't care"
(30_encoding.md R32). A fresh draw for each request. Log entry 8. -/
opaque Config.dontCare : Nat → Request

/-- Whether the host re-encodes the text after a decode that succeeded: either may happen (41_host_text.md R56;
93_implementation_defined.md I8). A fresh draw for each such decode. Log entry 7. -/
opaque Config.reencodes : Nat → Bool

end Sys2Proof
end

