-- ==== Sys2Proof/Syntax.lean ====
section
/-! DEFINITION. The instructions of the block and the program lines of the spec's syntax, as data. -/

namespace Sys2Proof

/-- The block's two operations (30_encoding.md R33), each with the operands it takes from its ports (R34, R35). -/
inductive Instr where
  /-- DECODE, op = 0: the register word `reg_in` (40_codec.md R40). -/
  | decode (regIn : RegWord)
  /-- ENCODE, op = 1: the five field inputs, in the source's order (40_codec.md R41). -/
  | encode (prescIn scldelIn sdadelIn sclhIn scllIn : RegWord)
  deriving DecidableEq, Repr

/-- One line of a program in the syntax of 30_encoding.md R39. Literals are kept as written, so that a literal that does
not fit in 32 bits is a term, and an ill-formed one (WellFormed.lean). -/
inductive Line where
  /-- `DECODE <word>`. -/
  | decode (word : Nat)
  /-- `ENCODE <presc>, <scldel>, <sdadel>, <sclh>, <scll>`. -/
  | encode (presc scldel sdadel sclh scll : Nat)
  /-- `decode("<text>")`: decode_text (41_host_text.md R52). -/
  | decodeText (text : Text)
  /-- `encode({...})`: encode_text (41_host_text.md R53); a field the record omits is missing. -/
  | encodeText (fields : HostFields)
  deriving DecidableEq, Repr

/-- Why a line of text is no program line of 30_encoding.md R39. -/
inductive SyntaxRefusal where
  /-- A character that starts no word, quoted text or punctuation mark. -/
  | badCharacter (c : Char)
  /-- A quoted text that the line does not close. -/
  | openQuote
  /-- The words of the line are none of the four forms of a line. -/
  | badForm
  /-- An operand that is no integer literal, decimal or `0x` hex. -/
  | badLiteral (word : Text)
  /-- An integer literal of 2^32 or more. -/
  | literalTooWide (word : Text)
  /-- A name in a record that is none of the five fields. -/
  | unknownField (word : Text)
  /-- A field that a record names twice. -/
  | duplicateField (field : FieldName)
  /-- A value in a record that is no number and no quoted text. -/
  | badValue (word : Text)
  deriving DecidableEq, Repr

/-- Why a string of bytes is no request (30_encoding.md R32: one format, one length). -/
inductive DecodeRefusal where
  /-- Not the 25 bytes that 193 bits take. -/
  | wrongLength (bytes : Nat)
  /-- A bit above bit 192 is set, and a request has none. -/
  | bitsAboveRequest
  deriving DecidableEq, Repr

end Sys2Proof
end

