-- ==== Sys2Proof/Machine/Operands.lean ====
section
/-! DEFINITION. The layout of the register word and the shaping of operands: shift then mask in DECODE, mask then shift in
ENCODE (10_state.md R18; 30_encoding.md R36). -/

namespace Sys2Proof.Machine

/-- The bit offset of a field (10_state.md R18). -/
def fieldOffset : FieldName → Nat
  | .presc => 28
  | .scldel => 20
  | .sdadel => 16
  | .sclh => 8
  | .scll => 0

/-- The width of a field (10_state.md R17, R18). -/
def fieldWidth : FieldName → Nat
  | .presc => 4
  | .scldel => 4
  | .sdadel => 4
  | .sclh => 8
  | .scll => 8

/-- `mask(w) = 2^w - 1` as a register word (00_scope.md R7; 10_state.md R18, mask at field). -/
def fieldMask (F : FieldName) : RegWord := BitVec.ofNat 32 (2 ^ fieldWidth F - 1)

/-- The mask of a field in place (10_state.md R18). -/
def maskInPlace (F : FieldName) : RegWord := fieldMask F <<< fieldOffset F

/-- The mask of the reserved bits 27:24 (10_state.md R18, R19). -/
def reservedMask : RegWord := 0x0F000000#32

/-- The mask of all five fields (10_state.md R20). -/
def allFieldsMask : RegWord := 0xF0FFFFFF#32

/-- DECODE's shaping: "right-shift by the field's bit offset, then mask with (2^width - 1)" (40_codec.md R40). -/
def extractField (F : FieldName) (w : RegWord) : RegWord := (w >>> fieldOffset F) &&& fieldMask F

/-- ENCODE's shaping: the value masked to the field's width, then shifted to its offset (40_codec.md R41). -/
def placeField (F : FieldName) (v : RegWord) : RegWord := (v &&& fieldMask F) <<< fieldOffset F

/-- A word's four bytes as a platform of the given byte order stores it, lowest address first (20_memory.md R25). -/
def storedBytes : ByteOrder → RegWord → List Byte
  | .little, w => [w.extractLsb' 0 8, w.extractLsb' 8 8, w.extractLsb' 16 8, w.extractLsb' 24 8]
  | .big, w => [w.extractLsb' 24 8, w.extractLsb' 16 8, w.extractLsb' 8 8, w.extractLsb' 0 8]

/-- The word that four stored bytes hold, lowest address first (20_memory.md R25). -/
def wordOfStored : ByteOrder → Byte → Byte → Byte → Byte → RegWord
  | .little, b0, b1, b2, b3 => b3 ++ b2 ++ b1 ++ b0
  | .big, b0, b1, b2, b3 => b0 ++ b1 ++ b2 ++ b3

end Sys2Proof.Machine
end

