-- ==== Sys2Proof/Machine/HostText.lean ====
section
/-! DEFINITION. The host's conversions between text, host values and port values (41_host_text.md): pure functions, each
with exactly one of two outcomes, its result or one error (60_exceptions.md R59). -/

namespace Sys2Proof.Machine

/-- The value of a hex digit of either case (41_host_text.md R47, R48); none for any other character. -/
def hexDigitValue (c : Char) : Option Nat :=
  if '0' ≤ c ∧ c ≤ '9' then some (c.toNat - '0'.toNat)
  else if 'a' ≤ c ∧ c ≤ 'f' then some (c.toNat - 'a'.toNat + 10)
  else if 'A' ≤ c ∧ c ≤ 'F' then some (c.toNat - 'A'.toNat + 10)
  else none

/-- The value of a string of digits in a base, the most significant first, continued from the value `acc` of the digits
before them; none where one of the characters is no digit. -/
def digitsValue (base : Nat) (digit : Char → Option Nat) : Nat → Text → Option Nat
  | acc, [] => some acc
  | acc, c :: rest =>
    match digit c with
    | some d => digitsValue base digit (acc * base + d) rest
    | none => none

/-- The value of a nonempty string of digits (41_host_text.md R47, "at least one digit is required"). -/
def numeralValue (base : Nat) (digit : Char → Option Nat) : Text → Option Nat
  | [] => none
  | c :: rest => digitsValue base digit 0 (c :: rest)

/-- A text without its optional lowercase prefix `0x` (41_host_text.md R47). -/
def stripHexPrefix : Text → Text
  | '0' :: 'x' :: rest => rest
  | s => s

/-- The unbounded value of a text of the grammar of 41_host_text.md R47, by R48; none for any other text. -/
def hexTextValue (s : Text) : Option Nat := numeralValue 16 hexDigitValue (stripHexPrefix s)

/-- The reduction of a parsed value to the word for `reg_in` (41_host_text.md R49); none where the policy refuses it. -/
def reduceWide (policy : WideHexPolicy) (v : Nat) : Option RegWord :=
  match policy with
  | .ignore => some (BitVec.ofNat 32 v)
  | .reject => if v < 2 ^ 32 then some (BitVec.ofNat 32 v) else none

/-- PARSE_HEX (41_host_text.md R47 to R49; 60_exceptions.md R60). -/
def parseHex (policy : WideHexPolicy) (s : Text) : Except HostError RegWord :=
  match hexTextValue s with
  | none => .error (.parseError s)
  | some v =>
    match reduceWide policy v with
    | none => .error (.parseError s)
    | some w => .ok w

/-- The uppercase hex digit of a nibble (41_host_text.md R51). -/
def hexDigitChar (d : Nibble) : Char :=
  if d.toNat < 10 then Char.ofNat ('0'.toNat + d.toNat) else Char.ofNat ('A'.toNat + (d.toNat - 10))

/-- The `count` lowest nibbles of a word as hex digits, the most significant first. -/
def hexDigits : Nat → RegWord → Text
  | 0, _ => []
  | count + 1, r => hexDigitChar (r.extractLsb' (4 * count) 4) :: hexDigits count r

/-- FORMAT_HEX: `0x` and the eight nibbles from bits 31:28 down to bits 3:0 (41_host_text.md R51). It never fails. -/
def formatHex (r : RegWord) : Text := '0' :: 'x' :: hexDigits 8 r

/-- TO_FIELD_WORD: the low 32 bits of an integer, two's complement where it is negative; an error for any value that is
missing, no number, or no integer (41_host_text.md R50; 60_exceptions.md R61). -/
def toFieldWord (F : FieldName) (x : HostValue) : Except HostError RegWord :=
  match x with
  | .number q => if q.den = 1 then .ok (BitVec.ofInt 32 q.num) else .error (.invalidField F x)
  | .nan => .error (.invalidField F x)
  | .infinity _ => .error (.invalidField F x)
  | .text _ => .error (.invalidField F x)
  | .boolean _ => .error (.invalidField F x)
  | .missing => .error (.invalidField F x)
  | .other _ => .error (.invalidField F x)

/-- The request of decode_text: DECODE of the parsed word (41_host_text.md R52). -/
def decodeTextRequest (policy : WideHexPolicy) (s : Text) : Except HostError Instr :=
  match parseHex policy s with
  | .ok w => .ok (.decode w)
  | .error e => .error e

/-- The request of encode_text: the five conversions in the source's order, the first failure ends the call
(41_host_text.md R53; 60_exceptions.md R62). -/
def encodeTextRequest (f : HostFields) : Except HostError Instr :=
  match toFieldWord .presc f.presc with
  | .error e => .error e
  | .ok p =>
  match toFieldWord .scldel f.scldel with
  | .error e => .error e
  | .ok c =>
  match toFieldWord .sdadel f.sdadel with
  | .error e => .error e
  | .ok d =>
  match toFieldWord .sclh f.sclh with
  | .error e => .error e
  | .ok h =>
  match toFieldWord .scll f.scll with
  | .error e => .error e
  | .ok l => .ok (.encode p c d h l)

/-- The host integer that a port value is read as, zero-extended (10_state.md R16). -/
def hostNat (n : Nat) : HostValue := .number (n : Rat)

/-- The fields decode_text returns: each output zero-extended to a host integer (41_host_text.md R52; 10_state.md R16). -/
def hostFieldsOf (f : Fields) : HostFields where
  presc  := hostNat f.presc.toNat
  scldel := hostNat f.scldel.toNat
  sdadel := hostNat f.sdadel.toNat
  sclh   := hostNat f.sclh.toNat
  scll   := hostNat f.scll.toNat

/-- The host fields with one of them set (41_host_text.md R55, a change of a field input). -/
def setHostField (f : HostFields) (F : FieldName) (x : HostValue) : HostFields :=
  match F with
  | .presc => { f with presc := x }
  | .scldel => { f with scldel := x }
  | .sdadel => { f with sdadel := x }
  | .sclh => { f with sclh := x }
  | .scll => { f with scll := x }

/-- One of the five host fields by its name. -/
def getHostField (f : HostFields) (F : FieldName) : HostValue :=
  match F with
  | .presc => f.presc
  | .scldel => f.scldel
  | .sdadel => f.sdadel
  | .sclh => f.sclh
  | .scll => f.scll

/-- The code of an error, or 0 for success (60_exceptions.md R58). -/
def errorCode : Option HostError → Nat
  | none => 0
  | some (.parseError _) => 1
  | some (.invalidField _ _) => 2

end Sys2Proof.Machine
end

