-- ==== Sys2Proof/WellFormed.lean ====
section
/-! DEFINITION. Which terms of the syntax the spec admits. -/

namespace Sys2Proof

/-- Every instruction is well formed: "no request is illegal, reserved or a hint" and "no value of any operand is illegal"
(30_encoding.md R37). The operands' widths are in their types. -/
def Instr.wellFormed : Instr → Bool
  | .decode _ => true
  | .encode _ _ _ _ _ => true

/-- An integer literal of the mnemonic form fits in 32 bits (30_encoding.md R39). -/
def literalFits (n : Nat) : Bool := decide (n < 2 ^ Config.regW)

/-- A program line is well formed when the literals of a mnemonic form fit in 32 bits (30_encoding.md R39). A host call
takes any text and any field values: what is wrong with them is an error of the call, not of the line (41_host_text.md R47, R50). -/
def Line.wellFormed : Line → Bool
  | .decode w => literalFits w
  | .encode p c d h l => literalFits p && literalFits c && literalFits d && literalFits h && literalFits l
  | .decodeText _ => true
  | .encodeText _ => true

end Sys2Proof
end

