-- ==== Sys2Proof/Decode.lean ====
section
/-! DEFINITION. From a request to the instruction it selects, and back: the decoder is total on requests, and total on bytes
with a refusal by name for bytes that are no request. -/

namespace Sys2Proof

/-- The operation selector of an instruction (30_encoding.md R33). -/
def Instr.selector : Instr → BitVec 1
  | .decode _ => 0#1
  | .encode _ _ _ _ _ => 1#1

/-- The instruction a request selects: `op` alone decides, the operands are taken whole from their ports
(30_encoding.md R33, R36, R38). -/
def decodeRequest (r : Request) : Instr :=
  if r.op = 0#1 then .decode r.regIn
  else .encode r.prescIn r.scldelIn r.sdadelIn r.sclhIn r.scllIn

/-- The request that asks for instruction `i`. The ports `i` does not use are "don't care" (30_encoding.md R32): they keep
what `fill` has on them. -/
def encodeRequest (fill : Request) : Instr → Request
  | .decode w => { fill with op := (Instr.decode w).selector, regIn := w }
  | .encode p c d h l =>
    { fill with op := (Instr.encode p c d h l).selector, prescIn := p, scldelIn := c, sdadelIn := d, sclhIn := h, scllIn := l }

/-- The request as its 193 bits, in the tuple's order from bit 0: `op`, `reg_in`, `presc_in`, `scldel_in`, `sdadel_in`,
`sclh_in`, `scll_in` (30_encoding.md R32). DESIGN CHOICE: log entry 1. -/
def Request.toBits (r : Request) : BitVec 193 :=
  r.scllIn ++ r.sclhIn ++ r.sdadelIn ++ r.scldelIn ++ r.prescIn ++ r.regIn ++ r.op

/-- The request whose 193 bits are `v`, laid out as `Request.toBits` says. -/
def Request.ofBits (v : BitVec 193) : Request where
  op       := v.extractLsb' 0 1
  regIn    := v.extractLsb' 1 32
  prescIn  := v.extractLsb' 33 32
  scldelIn := v.extractLsb' 65 32
  sdadelIn := v.extractLsb' 97 32
  sclhIn   := v.extractLsb' 129 32
  scllIn   := v.extractLsb' 161 32

/-- The low `count` bytes of `n`, the least significant byte first. -/
def bytesOfNat : Nat → Nat → List Byte
  | 0, _ => []
  | count + 1, n => BitVec.ofNat 8 n :: bytesOfNat count (n / 256)

/-- The number whose bytes are given, the least significant byte first. -/
def natOfBytes : List Byte → Nat
  | [] => 0
  | b :: rest => b.toNat + 256 * natOfBytes rest

/-- The bytes that hold a request of 193 bits. -/
def requestBytes : Nat := (Config.requestW + 7) / 8

/-- The decoder on bytes: 25 bytes, bit 0 in the least significant bit of the first, nothing above bit 192
(30_encoding.md R32, R38). DESIGN CHOICE: log entry 1. -/
def decodeBytes (bytes : List Byte) : Except DecodeRefusal Instr :=
  if bytes.length = requestBytes then
    if natOfBytes bytes < 2 ^ Config.requestW then
      .ok (decodeRequest (Request.ofBits (BitVec.ofNat 193 (natOfBytes bytes))))
    else .error .bitsAboveRequest
  else .error (.wrongLength bytes.length)

/-- The request with every bit 0, on which the byte encoder writes. -/
def Request.zero : Request := ⟨0, 0, 0, 0, 0, 0, 0⟩

/-- The bytes of an instruction: its request with the ports it does not use at 0, in the layout `decodeBytes` reads. -/
def encodeBytes (i : Instr) : List Byte :=
  bytesOfNat requestBytes (encodeRequest Request.zero i).toBits.toNat

/-- The request whose low `nbits` bits are those of `w`, every bit above them 0. -/
def Request.ofTableWord (nbits w : Nat) : Request :=
  Request.ofBits (BitVec.ofNat 193 (w % 2 ^ nbits))

/-- The instruction the decoder reads from an instruction whose low `nbits` bits are those of `w`, every bit above them 0;
none where the decoder refuses its bytes. -/
def decodeTableWord (nbits w : Nat) : Option Instr :=
  (decodeBytes (bytesOfNat (max requestBytes ((nbits + 7) / 8)) (w % 2 ^ nbits))).toOption

end Sys2Proof
end

