-- ==== Sys2Proof/Machine/State.lean ====
section
/-! DEFINITION. The machine's state as plain data: the block's ports, the host, and the model's own bookkeeping. The block
itself "holds no architectural state" (10_state.md R9): no field below is a register of the block. -/

namespace Sys2Proof.Machine

/-- Who asked for an operation. Callers have no identity inside the block (60_exceptions.md R66); the model tags each call
so that "each caller receives the response" of its own request. -/
inductive Caller where
  /-- The host's user interface, which shows what it receives (41_host_text.md R54, R55). -/
  | ui
  /-- Any other caller. -/
  | other (id : Nat)
  deriving DecidableEq, Repr

/-- What a call takes and returns: port values, or the text and host values of decode_text and encode_text
(41_host_text.md R52, R53). -/
inductive CallForm where
  | block
  | text
  deriving DecidableEq, Repr

/-- A request that stands on the block's input ports, with the call it belongs to. -/
structure Issued where
  request : Request
  caller  : Caller
  form    : CallForm
  deriving DecidableEq, Repr

/-- What a caller receives: the block's response, the result of decode_text or encode_text, or one error
(60_exceptions.md R59). -/
inductive CallOutcome where
  | response (r : Response)
  | fields (f : HostFields)
  | text (t : Text)
  | error (e : HostError)
  deriving DecidableEq, Repr

/-- One thing the callers or the user want done. -/
inductive Task where
  /-- A request to the block (30_encoding.md R32). -/
  | request (c : Caller) (i : Instr)
  /-- A call of decode_text (41_host_text.md R52). -/
  | callDecode (c : Caller) (s : Text)
  /-- A call of encode_text (41_host_text.md R53). -/
  | callEncode (c : Caller) (f : HostFields)
  /-- The user changed the register text (41_host_text.md R54). -/
  | textChanged (s : Text)
  /-- The user changed a field input (41_host_text.md R55). -/
  | fieldChanged (field : FieldName) (x : HostValue)
  deriving DecidableEq, Repr

/-- What the host shows (41_host_text.md R54, R55; H.text and H.fields of 95_test_vectors.md). -/
structure HostView where
  /-- H.text, the register text shown. -/
  text     : Text
  /-- H.fields, the five field values shown. -/
  fields   : HostFields
  /-- The messages shown so far, oldest first, each by the error it reports. Log entry 10. -/
  messages : List HostError
  deriving DecidableEq, Repr

/-- The whole machine. -/
structure State where
  /-- The block's input ports: the request being made, or none is (10_state.md R12, R13). -/
  ports         : Option Issued
  /-- The response on the block's output ports at the last operation; "before any operation there is no response"
  (10_state.md R13, R23). DESIGN CHOICE: it is kept until the next operation, as the model's record; the spec says nothing of
  the outputs between operations and the block has no output register (91_not_in_source.md N4, N15). Log entry 9. -/
  response      : Option Response
  /-- What the host shows. -/
  host          : HostView
  /-- The parameter WIDE_HEX_POLICY (41_host_text.md R49); no step changes it. Log entry 5. -/
  wideHexPolicy : WideHexPolicy
  /-- The model's own: what is still to be done, oldest first. Log entry 4. -/
  queue         : List Task
  /-- The model's own: what each caller has received, oldest first. Log entry 11. -/
  outcomes      : List (Caller × CallOutcome)
  /-- The model's own: how many free values have been drawn. Log entry 22. -/
  draws         : Nat
  deriving DecidableEq, Repr

/-- No fault exists: the block "raises no exception", cannot "fail, trap, hang or give an undefined result"
(60_exceptions.md R57), and every error is a return value of a host function (R63). A type without a constructor says so;
nothing raises one. Log entry 20. -/
inductive Fault
  deriving DecidableEq, Repr

/-- The reasons to refuse an instruction. -/
inductive Refusal where
  /-- Raised by an arm of `exec` for an instruction that has no meaning; safe, since the machine then stops. No arm raises it. -/
  | notModelled (mnemonic : String)
  deriving DecidableEq, Repr

/-- The machine before its first operation: no request is being made, there is no response (10_state.md R23), and nothing
need be initialised (70_reset_and_hazards.md R68, R69). The host's text and fields are any values
(93_implementation_defined.md I7). Log entries 4, 5, 6, 10, 11 and 22. -/
def State.reset : State where
  ports         := none
  response      := none
  host          := { text := Config.initialText, fields := Config.initialFields, messages := [] }
  wideHexPolicy := Config.defaultWideHexPolicy
  queue         := []
  outcomes      := []
  draws         := 0

end Sys2Proof.Machine
end

