-- ==== Sys2Proof/Machine/Ops.lean ====
section
/-! DEFINITION. The named operations over the state, each once: what stands on the ports, the response, and what a caller
receives. The block has no trap (60_exceptions.md R63); what takes its place is `complete` with an error, which hands the
error to its caller. -/

namespace Sys2Proof.Machine

/-- The block drives its response (10_state.md R13). Nothing else changes (20_memory.md R29). -/
def State.respond (s : State) (r : Response) : State := { s with response := some r }

/-- Caller `c` puts a request for `i` on the input ports. The ports `i` does not use take a free value
(30_encoding.md R32). Log entry 8. -/
def State.issue (s : State) (c : Caller) (form : CallForm) (i : Instr) : State :=
  { s with ports := some ⟨encodeRequest (Config.dontCare s.draws) i, c, form⟩, draws := s.draws + 1 }

/-- The request that stood on the input ports has had its response. DESIGN CHOICE: `response` still holds it, until the next
operation (log entry 9). -/
def State.releasePorts (s : State) : State := { s with ports := none }

/-- Caller `c` receives the outcome of its call (60_exceptions.md R59). -/
def State.record (s : State) (c : Caller) (o : CallOutcome) : State := { s with outcomes := s.outcomes ++ [(c, o)] }

/-- What is left to be done. -/
def State.setQueue (s : State) (q : List Task) : State := { s with queue := q }

/-- The host shows a register text (41_host_text.md R54, R55). -/
def State.showText (s : State) (t : Text) : State := { s with host := { s.host with text := t } }

/-- The host shows five fields (41_host_text.md R54, R55). -/
def State.showFields (s : State) (f : HostFields) : State := { s with host := { s.host with fields := f } }

/-- The host shows a message (41_host_text.md R54, R55). -/
def State.showMessage (s : State) (e : HostError) : State :=
  { s with host := { s.host with messages := s.host.messages ++ [e] } }

/-- After a decode that succeeded the host re-encodes the fields just shown, or does not: a free value decides
(41_host_text.md R56). Log entry 7. -/
def State.maybeReencode (s : State) (f : HostFields) : State :=
  { s with queue := if Config.reencodes s.draws then .callEncode .ui f :: s.queue else s.queue, draws := s.draws + 1 }

/-- What the user interface does with what it receives (41_host_text.md R54, R55): fields are shown, and perhaps encoded
again; a text is shown; an error is shown as a message and nothing else changes. A bare response of the block shows nothing
(log entry 11). DESIGN CHOICE: a text that the host itself shows after an encode_text is no change of the register text, so it
is not decoded; the spec is silent there (log entry 24). DESIGN CHOICE: on a ParseError the fields stay as they were just before,
a field that the user edited among them; R54's "those of the last text that parsed" says otherwise there (log entry 25). -/
def State.present (s : State) (o : CallOutcome) : State :=
  match o with
  | .response _ => s
  | .fields f => (s.showFields f).maybeReencode f
  | .text t => s.showText t
  | .error e => s.showMessage e

/-- A call ends: its caller receives the outcome, and the user interface presents its own (60_exceptions.md R59, R66). -/
def complete (s : State) (c : Caller) (o : CallOutcome) : State :=
  match c with
  | .ui => (s.record c o).present o
  | .other _ => s.record c o

/-- What the caller of a call receives for the block's response: the response itself, or the host's conversion of it
(41_host_text.md R52, R53). -/
def outcomeOf (form : CallForm) (r : Response) : CallOutcome :=
  match form, r with
  | .block, r => .response r
  | .text, .fields f => .fields (hostFieldsOf f)
  | .text, .word w => .text (formatHex w)

/-- The response goes to the caller that issued the request, and the ports are free again (60_exceptions.md R66). -/
def deliver (q : Issued) (s : State) : State :=
  match s.response with
  | some r => complete s.releasePorts q.caller (outcomeOf q.form r)
  | none => s.releasePorts

/-- The host takes up one task: it puts a request on the ports, or ends the call with the error that its conversion raised,
in which case no request is made (41_host_text.md R52 to R55). -/
def startCall (s : State) (c : Caller) (i : Except HostError Instr) : State :=
  match i with
  | .ok i => s.issue c .text i
  | .error e => complete s c (.error e)

/-- What each task asks of the host (41_host_text.md R52 to R55; 30_encoding.md R39). -/
def runTask (s : State) (t : Task) : State :=
  match t with
  | .request c i => s.issue c .block i
  | .callDecode c x => startCall s c (decodeTextRequest s.wideHexPolicy x)
  | .callEncode c f => startCall s c (encodeTextRequest f)
  | .textChanged x => startCall (s.showText x) .ui (decodeTextRequest s.wideHexPolicy x)
  | .fieldChanged F x =>
    startCall (s.showFields (setHostField s.host.fields F x)) .ui (encodeTextRequest (setHostField s.host.fields F x))

/-- The host's step: the oldest task, or nothing where there is none (41_host_text.md R55, R56). Log entry 3. DESIGN CHOICE:
where no operation is performed, `response` keeps the last one's (log entry 9). -/
def hostStep (s : State) : State :=
  match s.queue with
  | [] => s
  | t :: rest => runTask (s.setQueue rest) t

end Sys2Proof.Machine
end

