-- ==== Sys2Proof/Machine/Codec.lean ====
section
/-! DEFINITION. The meanings of the block's two operations (40_codec.md). -/

namespace Sys2Proof.Machine

/-- DECODE's five outputs, each at its field's width (40_codec.md R40; 10_state.md R16). -/
def decodeWord (w : RegWord) : Fields where
  presc  := (extractField .presc w).setWidth 4
  scldel := (extractField .scldel w).setWidth 4
  sdadel := (extractField .sdadel w).setWidth 4
  sclh   := (extractField .sclh w).setWidth 8
  scll   := (extractField .scll w).setWidth 8

/-- ENCODE's result: the five placed fields ORed together, the reserved bits 0 (40_codec.md R41). -/
def encodeWord (prescIn scldelIn sdadelIn sclhIn scllIn : RegWord) : RegWord :=
  placeField .presc prescIn ||| placeField .scldel scldelIn ||| placeField .sdadel sdadelIn |||
    placeField .sclh sclhIn ||| placeField .scll scllIn

/-- DECODE (40_codec.md R40): total, no flag, no exception. -/
def execDecode (regIn : RegWord) (s : State) : Host.Outcome State Fault Refusal :=
  .next (s.respond (.fields (decodeWord regIn)))

/-- ENCODE (40_codec.md R41): total, no flag, no exception; a value out of range is truncated. -/
def execEncode (prescIn scldelIn sdadelIn sclhIn scllIn : RegWord) (s : State) : Host.Outcome State Fault Refusal :=
  .next (s.respond (.word (encodeWord prescIn scldelIn sdadelIn sclhIn scllIn)))

/-- The response of an instruction, as a function of its operands alone (10_state.md R14; 40_codec.md R46). -/
def responseOf : Instr → Response
  | .decode w => .fields (decodeWord w)
  | .encode p c d h l => .word (encodeWord p c d h l)

/-- The source's `decode(registerHex)` as one pure function (41_host_text.md R52). -/
def decodeText (policy : WideHexPolicy) (s : Text) : Except HostError HostFields :=
  match parseHex policy s with
  | .ok w => .ok (hostFieldsOf (decodeWord w))
  | .error e => .error e

/-- The source's `encode(fields)` as one pure function (41_host_text.md R53): the five conversions in order, the first
failure ends the call; then ENCODE and FORMAT_HEX. -/
def encodeText (f : HostFields) : Except HostError Text := do
  let p ← toFieldWord .presc f.presc
  let c ← toFieldWord .scldel f.scldel
  let d ← toFieldWord .sdadel f.sdadel
  let h ← toFieldWord .sclh f.sclh
  let l ← toFieldWord .scll f.scll
  pure (formatHex (encodeWord p c d h l))

end Sys2Proof.Machine
end

