-- ==== Sys2Proof/Machine/Dispatch.lean ====
section
/-! DEFINITION. One arm per instruction. -/

namespace Sys2Proof.Machine

def exec (i : Instr) (s : State) : Host.Outcome State Fault Refusal :=
  match i with
  | .decode regIn => Sys2Proof.Machine.execDecode regIn s
  | .encode prescIn scldelIn sdadelIn sclhIn scllIn => Sys2Proof.Machine.execEncode prescIn scldelIn sdadelIn sclhIn scllIn s

end Sys2Proof.Machine
end

