-- ==== Sys2Proof/Machine/Step.lean ====
section
/-! DEFINITION. One step of the whole machine: the block where a request stands on its ports, the host otherwise. -/

namespace Sys2Proof.Machine

/-- A request on the ports is decoded, performed and answered as one atomic step (10_state.md R13; 60_exceptions.md R66;
70_reset_and_hazards.md R72); with none there, the host takes up its oldest task. Log entry 2. -/
def step (s : State) : Host.Outcome State Fault Refusal :=
  match s.ports with
  | none => .next (hostStep s)
  | some q =>
    match exec (decodeRequest q.request) s with
    | .next t => .next (deliver q t)
    | .fault r => .fault r
    | .refused r => .refused r

/-- The state with the request of a table word on the block's input ports, issued by a caller of the block. Log entry 4. -/
def State.withFetchWord (s : State) (nbits w : Nat) : State :=
  { s with ports := some ⟨Request.ofTableWord nbits w, .other 0, .block⟩ }

end Sys2Proof.Machine
end

