-- ==== Sys2Proof/Machine/Assembler.lean ====
section
/-! DEFINITION. The program syntax of 30_encoding.md R39: from text to program lines, and from lines to what the host is to
do. The lexical details that R39 does not give are log entry 18. -/

namespace Sys2Proof.Machine

/-- The words of a line. The punctuation marks are the six that R39's forms use. -/
inductive Token where
  | word (t : Text)
  | quoted (t : Text)
  | mark (c : Char)
  deriving DecidableEq, Repr

/-- Where the reader stands in a line: between words, inside a word, or inside a quoted text (both kept backwards). -/
inductive Reading where
  | between
  | inWord (backwards : Text)
  | inQuote (backwards : Text)
  deriving DecidableEq, Repr

/-- The characters of names and number literals: letters, digits, and the sign and point of a host number. -/
def isWordChar (c : Char) : Bool := c.isAlphanum || c == '-' || c == '.'

/-- The punctuation of R39's forms: parentheses, braces (characters 123 and 125), the colon and the comma. -/
def isMark (c : Char) : Bool :=
  c == '(' || c == ')' || c == Char.ofNat 123 || c == Char.ofNat 125 || c == ':' || c == ','

/-- The word read so far, if any, before the tokens that follow it. -/
def finishWord (r : Reading) (rest : List Token) : List Token :=
  match r with
  | .inWord b => .word b.reverse :: rest
  | .between => rest
  | .inQuote _ => rest

/-- The tokens of a line. A semicolon outside quotes starts a comment that runs to the end of the line. -/
def tokens : Reading → Text → Except SyntaxRefusal (List Token)
  | .inQuote _, [] => .error .openQuote
  | .between, [] => .ok []
  | .inWord b, [] => .ok [.word b.reverse]
  | .inQuote b, c :: rest =>
    if c = '"' then (tokens .between rest).map (.quoted b.reverse :: ·) else tokens (.inQuote (c :: b)) rest
  | .between, c :: rest =>
    if isWordChar c then tokens (.inWord [c]) rest
    else if c = ';' then .ok []
    else if c = '"' then tokens (.inQuote []) rest
    else if isMark c then (tokens .between rest).map (.mark c :: ·)
    else if c.isWhitespace then tokens .between rest
    else .error (.badCharacter c)
  | .inWord b, c :: rest =>
    if isWordChar c then tokens (.inWord (c :: b)) rest
    else if c = ';' then .ok (finishWord (.inWord b) [])
    else if c = '"' then (tokens (.inQuote []) rest).map (finishWord (.inWord b))
    else if isMark c then (tokens .between rest).map fun ts => finishWord (.inWord b) (.mark c :: ts)
    else if c.isWhitespace then (tokens .between rest).map (finishWord (.inWord b))
    else .error (.badCharacter c)

/-- The value of a decimal digit. -/
def decimalDigitValue (c : Char) : Option Nat :=
  if '0' ≤ c ∧ c ≤ '9' then some (c.toNat - '0'.toNat) else none

/-- An unsigned integer literal: `0x` and hex digits, or decimal digits (30_encoding.md R39). -/
def naturalLiteral (t : Text) : Option Nat :=
  match t with
  | '0' :: 'x' :: rest => numeralValue 16 hexDigitValue rest
  | t => numeralValue 10 decimalDigitValue t

/-- An operand of a mnemonic form: an integer literal that fits in 32 bits (30_encoding.md R39). -/
def operandLiteral (t : Text) : Except SyntaxRefusal Nat :=
  match naturalLiteral t with
  | none => .error (.badLiteral t)
  | some n => if literalFits n then .ok n else .error (.literalTooWide t)

/-- The host value of an unsigned number literal: an integer literal, or decimal digits with a decimal point between. -/
def unsignedNumber (t : Text) : Option Rat :=
  match naturalLiteral t with
  | some n => some (n : Rat)
  | none =>
    let whole := t.takeWhile (· != '.')
    let fraction := (t.dropWhile (· != '.')).drop 1
    match numeralValue 10 decimalDigitValue whole, numeralValue 10 decimalDigitValue fraction with
    | some _, some _ =>
      (numeralValue 10 decimalDigitValue (whole ++ fraction)).map fun (n : Nat) => mkRat (n : Int) (10 ^ fraction.length)
    | _, _ => none

/-- The value of a record's word: a number literal with an optional minus sign. -/
def recordNumber (t : Text) : Except SyntaxRefusal HostValue :=
  match t with
  | '-' :: rest =>
    match unsignedNumber rest with
    | some q => .ok (.number (-q))
    | none => .error (.badValue t)
  | t =>
    match unsignedNumber t with
    | some q => .ok (.number q)
    | none => .error (.badValue t)

/-- The field a record's word names (30_encoding.md R39). -/
def fieldNamed (t : Text) : Option FieldName :=
  if t = "presc".toList then some .presc
  else if t = "scldel".toList then some .scldel
  else if t = "sdadel".toList then some .sdadel
  else if t = "sclh".toList then some .sclh
  else if t = "scll".toList then some .scll
  else none

/-- The record with one more field, which it must not name yet. -/
def addRecordField (f : HostFields) (name : Text) (x : HostValue) : Except SyntaxRefusal HostFields :=
  match fieldNamed name with
  | none => .error (.unknownField name)
  | some F => if getHostField f F = .missing then .ok (setHostField f F x) else .error (.duplicateField F)

/-- A record that names no field: every field is missing (30_encoding.md R39; 41_host_text.md R50). -/
def emptyRecord : HostFields := ⟨.missing, .missing, .missing, .missing, .missing⟩

/-- The fields of a record after its opening brace, in any order (30_encoding.md R39), up to the closing brace and
parenthesis that end the line. -/
def recordFields (f : HostFields) : List Token → Except SyntaxRefusal HostFields
  | .word name :: .mark ':' :: .word v :: .mark m :: rest =>
    match recordNumber v with
    | .error e => .error e
    | .ok x =>
      match addRecordField f name x with
      | .error e => .error e
      | .ok f =>
        if m = ',' then recordFields f rest
        else if m = Char.ofNat 125 ∧ rest = [.mark ')'] then .ok f
        else .error .badForm
  | .word name :: .mark ':' :: .quoted v :: .mark m :: rest =>
    match addRecordField f name (.text v) with
    | .error e => .error e
    | .ok f =>
      if m = ',' then recordFields f rest
      else if m = Char.ofNat 125 ∧ rest = [.mark ')'] then .ok f
      else .error .badForm
  | _ => .error .badForm

/-- `DECODE <word>` (30_encoding.md R39). -/
def decodeLine (w : Text) : Except SyntaxRefusal Line := do
  let w ← operandLiteral w
  pure (.decode w)

/-- `ENCODE <presc>, <scldel>, <sdadel>, <sclh>, <scll>` (30_encoding.md R39). -/
def encodeLine (p c d h l : Text) : Except SyntaxRefusal Line := do
  let p ← operandLiteral p
  let c ← operandLiteral c
  let d ← operandLiteral d
  let h ← operandLiteral h
  let l ← operandLiteral l
  pure (.encode p c d h l)

/-- `decode("<text>")` and `encode({...})`, after the name of the function and its opening parenthesis. -/
def callLine (name : Text) (args : List Token) : Except SyntaxRefusal Line :=
  if name = "decode".toList then
    match args with
    | [.quoted t, .mark ')'] => .ok (.decodeText t)
    | _ => .error .badForm
  else if name = "encode".toList then
    match args with
    | [.mark a, .mark b, .mark ')'] =>
      if a = Char.ofNat 123 ∧ b = Char.ofNat 125 then .ok (.encodeText emptyRecord) else .error .badForm
    | .mark a :: rest => if a = Char.ofNat 123 then (recordFields emptyRecord rest).map .encodeText else .error .badForm
    | _ => .error .badForm
  else .error .badForm

/-- The line that a list of tokens is; none for a line that holds no operation. -/
def lineOfTokens : List Token → Except SyntaxRefusal (Option Line)
  | [] => .ok none
  | [.word m, .word w] => if m = "DECODE".toList then (decodeLine w).map some else .error .badForm
  | [.word m, .word p, .mark ',', .word c, .mark ',', .word d, .mark ',', .word h, .mark ',', .word l] =>
    if m = "ENCODE".toList then (encodeLine p c d h l).map some else .error .badForm
  | .word name :: .mark '(' :: args => (callLine name args).map some
  | _ => .error .badForm

/-- One line of program text (30_encoding.md R39); none for a line that holds no operation. -/
def parseLine (t : Text) : Except SyntaxRefusal (Option Line) :=
  match tokens .between t with
  | .ok ts => lineOfTokens ts
  | .error e => .error e

/-- The lines of a text, split at line feeds: the first of them, read so far backwards, before the rest. -/
def splitLines (backwards : Text) : Text → List Text
  | [] => [backwards.reverse]
  | c :: rest => if c = '\n' then backwards.reverse :: splitLines [] rest else splitLines (c :: backwards) rest

/-- The program lines of a list of lines of text, those without an operation left out; the first refusal ends the reading. -/
def parseLines : List Text → Except SyntaxRefusal (List Line)
  | [] => .ok []
  | t :: rest =>
    match parseLine t with
    | .error e => .error e
    | .ok none => parseLines rest
    | .ok (some l) => (parseLines rest).map (l :: ·)

/-- A program: one operation per line (30_encoding.md R39). -/
def assemble (program : Text) : Except SyntaxRefusal (List Line) := parseLines (splitLines [] program)

/-- What the host is to do for a program line: a request, or a call of one of the source's two functions
(30_encoding.md R39). The operands reach the ports as 32-bit values. -/
def taskOfLine (c : Caller) : Line → Task
  | .decode w => .request c (.decode (BitVec.ofNat 32 w))
  | .encode p c' d h l =>
    .request c (.encode (BitVec.ofNat 32 p) (BitVec.ofNat 32 c') (BitVec.ofNat 32 d) (BitVec.ofNat 32 h) (BitVec.ofNat 32 l))
  | .decodeText t => .callDecode c t
  | .encodeText f => .callEncode c f

/-- The state with a program of caller `c` after everything else that is to be done. Log entry 4. -/
def State.load (s : State) (c : Caller) (program : List Line) : State :=
  s.setQueue (s.queue ++ program.map (taskOfLine c))

end Sys2Proof.Machine
end

