-- ==== Sys2Proof/Safety.lean ====
section
/-! DEFINITION. What counts as a safe run, and what every state of a run keeps. -/

namespace Sys2Proof.Machine

/-- The state after `n` steps, if none of the first `n` steps stops. -/
def runsTo (n : Nat) (s t : State) : Prop := Host.Core.run Sys2Proof.core n s = .next t

/-- No step of the run from `s` stops the machine: no fault and no refusal (60_exceptions.md R57). -/
def neverStops (s : State) : Prop := ∀ n, ∃ t, runsTo n s t

/-- A call that a caller makes: a request to the block, or one of the source's two functions (30_encoding.md R39). -/
inductive Call where
  | request (i : Instr)
  | decodeText (s : Text)
  | encodeText (f : HostFields)
  deriving DecidableEq, Repr

/-- The task of a call that caller `c` makes. -/
def taskOfCall (c : Caller) : Call → Task
  | .request i => .request c i
  | .decodeText s => .callDecode c s
  | .encodeText f => .callEncode c f

/-- What a call's own operands give it, whatever else happens (10_state.md R14; 41_host_text.md R52, R53). -/
def resultOfCall (policy : WideHexPolicy) : Call → CallOutcome
  | .request i => .response (responseOf i)
  | .decodeText s =>
    match decodeText policy s with
    | .ok f => .fields f
    | .error e => .error e
  | .encodeText f =>
    match encodeText f with
    | .ok t => .text t
    | .error e => .error e

/-- What the caller of a call may receive for it: its own result, and at the user interface, after a decode_text that
succeeded, also the result of encoding those fields again, which the source leaves open (41_host_text.md R56; log entry 7). -/
def answersOfCall (policy : WideHexPolicy) (c : Caller) (x : Call) (answer : List (Caller × CallOutcome)) : Prop :=
  answer = [(c, resultOfCall policy x)] ∨
    ∃ f, c = .ui ∧ resultOfCall policy x = .fields f ∧
      answer = [(.ui, .fields f), (.ui, resultOfCall policy (.encodeText f))]

/-- How many steps a call takes at most: two, and two more for a re-encode at the user interface (log entries 2 and 7). -/
def stepsOfCall : Caller → Nat
  | .ui => 4
  | .other _ => 2

/-- What the host shows once the given outcomes are received: the user interface shows its own texts and fields, the last of
each, and a message for each of its errors (41_host_text.md R54, R55). That messages are a history is log entry 10, the duty on
InvalidFieldError log entry 16, that a bare response shows nothing log entry 11. -/
def viewAfter (view : HostView) : List (Caller × CallOutcome) → HostView
  | [] => view
  | (.ui, .fields f) :: rest => viewAfter { view with fields := f } rest
  | (.ui, .text t) :: rest => viewAfter { view with text := t } rest
  | (.ui, .error e) :: rest => viewAfter { view with messages := view.messages ++ [e] } rest
  | (.ui, .response _) :: rest => viewAfter view rest
  | (.other _, _) :: rest => viewAfter view rest

/-- What callers other than the user interface received, among the given outcomes. -/
def othersAmong (outcomes : List (Caller × CallOutcome)) : List (Caller × CallOutcome) :=
  outcomes.filter fun x => x.1 != .ui

/-- A host value that is a host integer (41_host_text.md R50). -/
def holdsInteger (x : HostValue) : Prop := ∃ n : Int, x = .number (n : Rat)

/-- The digits of 41_host_text.md R47. -/
abbrev isHexDigit (c : Char) : Prop := c ∈ "0123456789abcdefABCDEF".toList

/-- The grammar of 41_host_text.md R47, with the digits of a text of it: an optional `0x`, then one or more digits. -/
def hexGrammar (s digits : Text) : Prop :=
  (s = digits ∨ s = '0' :: 'x' :: digits) ∧ digits ≠ [] ∧ ∀ c ∈ digits, isHexDigit c

/-- The value of a digit by the table of 41_host_text.md R48: its place among the sixteen, in either case. -/
def tableDigit (c : Char) : Nat := "0123456789abcdef".toList.idxOf c.toLower

/-- The sum of 41_host_text.md R48 in any base: each digit times the base to the number of digits after it. -/
def positionalIn (base : Nat) : Text → Nat
  | [] => 0
  | d :: rest => tableDigit d * base ^ rest.length + positionalIn base rest

/-- The value of hex digits (41_host_text.md R48). -/
abbrev positionalValue (digits : Text) : Nat := positionalIn 16 digits

/-- A nonempty string of decimal digits. -/
def decimalNumeral (t : Text) : Prop := t ≠ [] ∧ ∀ c ∈ t, c ∈ "0123456789".toList

/-- `t` is an integer literal for `n`, decimal or `0x` hex (30_encoding.md R39). -/
def spellsInteger (t : Text) (n : Nat) : Prop :=
  (decimalNumeral t ∧ positionalIn 10 t = n) ∨
    ∃ digits, t = '0' :: 'x' :: digits ∧ digits ≠ [] ∧ (∀ c ∈ digits, isHexDigit c) ∧ positionalIn 16 digits = n

/-- `t` is an unsigned number literal for `q`: an integer literal, or decimal digits with a point between (log entry 18). -/
def spellsNumber (t : Text) (q : Rat) : Prop :=
  (∃ n : Nat, spellsInteger t n ∧ q = n) ∨
    ∃ whole fraction, t = whole ++ '.' :: fraction ∧ decimalNumeral whole ∧ decimalNumeral fraction ∧
      q = (positionalIn 10 (whole ++ fraction) : Rat) / 10 ^ fraction.length

/-- `t` writes the host value `x` in a record: a number literal with an optional minus sign, or a quoted text
(30_encoding.md R39; log entry 18). -/
def spellsValue (t : Text) (x : HostValue) : Prop :=
  (∃ q, spellsNumber t q ∧ x = .number q) ∨ (∃ u q, t = '-' :: u ∧ spellsNumber u q ∧ x = .number (-q)) ∨
    ∃ u, t = '"' :: (u ++ ['"']) ∧ '"' ∉ u ∧ x = .text u

/-- The name of a field as the record of 30_encoding.md R39 writes it. -/
def fieldText : FieldName → Text
  | .presc => "presc".toList
  | .scldel => "scldel".toList
  | .sdadel => "sdadel".toList
  | .sclh => "sclh".toList
  | .scll => "scll".toList

/-- The inside of a record as 30_encoding.md R39 writes it: `name: value`, separated by commas, in the given order. -/
def recordText : List (FieldName × Text) → Text
  | [] => []
  | [(F, v)] => fieldText F ++ ": ".toList ++ v
  | (F, v) :: rest => fieldText F ++ ": ".toList ++ v ++ ", ".toList ++ recordText rest

/-- The line `encode` of a record (30_encoding.md R39); the braces are characters 123 and 125. -/
def encodeCallText (items : List (FieldName × Text)) : Text :=
  "encode(".toList ++ [Char.ofNat 123] ++ recordText items ++ [Char.ofNat 125, ')']

/-- A word that ENCODE can produce: bits 27:24 are 0 (10_state.md R19, R20). -/
abbrev scrubbed (w : RegWord) : Prop := w &&& 0x0F000000#32 = 0#32

/-- A text in FORMAT_HEX's form of a scrubbed word: `0x` and eight uppercase hex digits, the digit of bits 27:24 a zero
(41_host_text.md R51; 10_state.md R19). -/
def formattedText (t : Text) : Prop :=
  ∃ p d7 d6 d5 d4 d3 d2, t = ['0', 'x', p, '0', d7, d6, d5, d4, d3, d2] ∧
    ∀ ch ∈ [p, d7, d6, d5, d4, d3, d2], ch ∈ "0123456789ABCDEF".toList

/-- A host value that is an integer below `2 ^ n`. -/
def integerBelow (n : Nat) (x : HostValue) : Prop := ∃ v : Nat, v < 2 ^ n ∧ x = .number (v : Rat)

/-- Fields in the ranges of a DECODE result: 0 to 15 and 0 to 255 (10_state.md R16, R17). -/
def fieldsInRange (f : HostFields) : Prop :=
  integerBelow 4 f.presc ∧ integerBelow 4 f.scldel ∧ integerBelow 4 f.sdadel ∧ integerBelow 8 f.sclh ∧ integerBelow 8 f.scll

/-- A response the block can give (10_state.md R20). -/
def legalResponse : Response → Prop
  | .fields _ => True
  | .word w => scrubbed w

/-- An outcome a caller can receive (10_state.md R17, R20; 41_host_text.md R51). -/
def legalOutcome : CallOutcome → Prop
  | .response r => legalResponse r
  | .fields f => fieldsInRange f
  | .text t => formattedText t
  | .error _ => True

/-- Every response and every outcome so far is one the spec admits. -/
def outcomesLegal (s : State) : Prop :=
  (∀ r, s.response = some r → legalResponse r) ∧ ∀ c o, (c, o) ∈ s.outcomes → legalOutcome o

/-- The errors among what the user interface received, oldest first. -/
def uiErrors : List (Caller × CallOutcome) → List HostError
  | [] => []
  | (.ui, .error e) :: rest => e :: uiErrors rest
  | _ :: rest => uiErrors rest

/-- The messages shown are exactly the errors that the user interface received, in order (41_host_text.md R54, R55). -/
def messagesMatchErrors (s : State) : Prop := s.host.messages = uiErrors s.outcomes

end Sys2Proof.Machine
end

