-- ==== Sys2Proof/Certificates/Slice0/Obligations.lean ====
section
/-! DEFINITION. The statements about the model, for the provers. Each follows a rule of spec/ or names the log entry it rests on. -/

open Sys2Proof Sys2Proof.Machine

/-! ## Reset, decoding and the step -/

/-- 10_state.md R23, 70_reset_and_hazards.md R68: before any operation no request stands on the ports, there is no response,
and no message or outcome has come of one. That nothing is queued is the model's choice (log entry 4), and so are the empty
histories of messages and outcomes (log entries 10 and 11). -/
def Obligations.ResetHasNoRequestAndNoResponse : Prop :=
  State.reset.ports = none ∧ State.reset.response = none ∧ State.reset.queue = [] ∧
    State.reset.host.messages = [] ∧ State.reset.outcomes = []

/-- 30_encoding.md R38, by the table of R33: `op` alone selects, 0 is DECODE and 1 is ENCODE, and every request has a row.
The spec marks R38 as derived from R32 and R33. -/
def Obligations.SelectorPicksTheOperation : Prop :=
  ∀ r : Request, (r.op = 0#1 ∨ r.op = 1#1) ∧
    (r.op = 0#1 → decodeRequest r = .decode r.regIn) ∧
    (r.op = 1#1 → decodeRequest r = .encode r.prescIn r.scldelIn r.sdadelIn r.sclhIn r.scllIn)

/-- Three requests written out byte by byte decode to what they stand for: DECODE 0x10A0B033, ENCODE 1, 10, 0, 176, 51, and
DECODE of all ones. The order of the operands' bits is the model's choice (log entry 1). -/
def Obligations.WrittenRequestsDecode : Prop :=
  decodeBytes [0x66, 0x60, 0x41, 0x21, 0, 0, 0, 0, 0, 0, 0, 0, 0, 0, 0, 0, 0, 0, 0, 0, 0, 0, 0, 0, 0]
      = .ok (.decode 0x10A0B033#32) ∧
    decodeBytes [0x01, 0, 0, 0, 0x02, 0, 0, 0, 0x14, 0, 0, 0, 0x00, 0, 0, 0, 0x60, 0x01, 0, 0, 0x66, 0, 0, 0, 0]
      = .ok (.encode 1 10 0 176 51) ∧
    decodeBytes [0xFE, 0xFF, 0xFF, 0xFF, 0x01, 0, 0, 0, 0, 0, 0, 0, 0, 0, 0, 0, 0, 0, 0, 0, 0, 0, 0, 0, 0]
      = .ok (.decode 0xFFFFFFFF#32)

/-- The bytes of any request, in the layout of log entry 1, decode to the instruction its `op` selects: no bit of a
request is dropped, and the don't-care ports change nothing (30_encoding.md R32). -/
def Obligations.EveryRequestsBytesDecode : Prop :=
  ∀ r : Request, decodeBytes (bytesOfNat 25 r.toBits.toNat) = .ok (decodeRequest r)

/-- Decode and encode agree: the bytes of every well-formed instruction decode to it, with every operand at every value
(30_encoding.md R37; the byte layout is log entry 1). -/
def Obligations.EncodedInstructionDecodesBack : Prop :=
  ∀ i : Instr, i.wellFormed = true → decodeBytes (encodeBytes i) = .ok i

/-- A step performs the request on the ports: the instruction it decodes to runs, the response goes to its caller in the
form of the call, and the ports are free (10_state.md R13; 60_exceptions.md R66; the step's grain is log entry 2). -/
def Obligations.StepRunsTheRequestOnThePorts : Prop :=
  ∀ (s : State) (q : Issued) (i : Instr), s.ports = some q → decodeRequest q.request = i → i.wellFormed = true →
    ∃ r, exec i s = .next { s with response := some r } ∧
      step s = .next (complete { s with response := some r, ports := none } q.caller (outcomeOf q.form r))

/-- A table word put on the ports runs as the decoder reads it: the very next step answers with the response of that
instruction, gives it to caller 0, and changes nothing else (log entries 1, 2 and 4). -/
def Obligations.TableWordRunsAsDecoded : Prop :=
  ∀ (s : State) (nbits w : Nat) (i : Instr), decodeTableWord nbits w = some i →
    ∃ r, exec i (s.withFetchWord nbits w) = .next { s.withFetchWord nbits w with response := some r } ∧
      step (s.withFetchWord nbits w) =
        .next { s with ports := none, response := some r, outcomes := s.outcomes ++ [(.other 0, .response r)] }

/-! ## The two operations -/

/-- 40_codec.md R40: op = 0 is DECODE of `reg_in`; it answers a next state on every word, its response the five fields at
their bit ranges, and nothing else changes. -/
def Obligations.DecodeGivesTheFiveFields : Prop :=
  ∀ (w : RegWord) (s : State),
    (∀ r : Request, r.op = 0#1 → r.regIn = w → decodeRequest r = .decode w) ∧
    exec (.decode w) s = .next { s with response := some (.fields
      { presc := w.extractLsb' 28 4, scldel := w.extractLsb' 20 4, sdadel := w.extractLsb' 16 4,
        sclh := w.extractLsb' 8 8, scll := w.extractLsb' 0 8 }) }

/-- 40_codec.md R41: op = 1 is ENCODE of the five inputs; it answers a next state on every value, its response the word with
each input's low bits at its range and bits 27:24 zero, which is also the OR of the masked and shifted inputs, and nothing
else changes. -/
def Obligations.EncodePacksTheFiveFields : Prop :=
  ∀ (p c d h l : RegWord) (s : State),
    (∀ r : Request, r.op = 1#1 → r.prescIn = p → r.scldelIn = c → r.sdadelIn = d → r.sclhIn = h → r.scllIn = l →
      decodeRequest r = .encode p c d h l) ∧
    (p.extractLsb' 0 4 ++ 0#4 ++ c.extractLsb' 0 4 ++ d.extractLsb' 0 4 ++ h.extractLsb' 0 8 ++ l.extractLsb' 0 8 : RegWord)
      = ((p &&& 0xF#32) <<< 28) ||| ((c &&& 0xF#32) <<< 20) ||| ((d &&& 0xF#32) <<< 16) ||| ((h &&& 0xFF#32) <<< 8) |||
        (l &&& 0xFF#32) ∧
    exec (.encode p c d h l) s = .next { s with response := some (.word
      (p.extractLsb' 0 4 ++ 0#4 ++ c.extractLsb' 0 4 ++ d.extractLsb' 0 4 ++ h.extractLsb' 0 8 ++ l.extractLsb' 0 8)) }

/-- 20_memory.md R29: an operation of either kind changes nothing but its own response: not the ports, the host's text,
fields and messages, the parameter, the queue, the outcomes or the draws; and performed again it gives the same response. -/
def Obligations.OperationChangesOnlyItsResponse : Prop :=
  ∀ (i : Instr) (s : State), ∃ t, exec i s = .next t ∧ exec i t = .next t ∧
    t.ports = s.ports ∧ t.host = s.host ∧ t.wideHexPolicy = s.wideHexPolicy ∧ t.queue = s.queue ∧
    t.outcomes = s.outcomes ∧ t.draws = s.draws

/-- 60_exceptions.md R57 and 30_encoding.md R37: DECODE and ENCODE answer a next state in every state. That no run stops says
more than those rules: that an idle step answers a next state is the model's choice (log entry 3), and that no step of the host
stops is deduced (log entry 20). -/
def Obligations.NoOperationAndNoRunStops : Prop :=
  (∀ (i : Instr) (s : State), ∃ t, exec i s = .next t) ∧ ∀ s : State, neverStops s

/-- 10_state.md R14: two requests with the same `op` and the same inputs of that operation get the same response, in any
two states, from any callers, and whatever stands on the other ports. -/
def Obligations.ResponseDependsOnlyOnTheSelectedInputs : Prop :=
  ∀ (s s' : State) (q q' : Issued), s.ports = some q → s'.ports = some q' → q.request.op = q'.request.op →
    (q.request.op = 0#1 → q.request.regIn = q'.request.regIn) →
    (q.request.op = 1#1 → q.request.prescIn = q'.request.prescIn ∧ q.request.scldelIn = q'.request.scldelIn ∧
      q.request.sdadelIn = q'.request.sdadelIn ∧ q.request.sclhIn = q'.request.sclhIn ∧
      q.request.scllIn = q'.request.scllIn) →
    ∃ t t' r, step s = .next t ∧ step s' = .next t' ∧ t.response = some r ∧ t'.response = some r

/-! ## The register word -/

/-- 10_state.md R18, R20: the masks in place are those of the table, no two of them overlap, and with the reserved bits
they fill the word. -/
def Obligations.FieldsTileTheWord : Prop :=
  (maskInPlace .presc = 0xF0000000#32 ∧ maskInPlace .scldel = 0x00F00000#32 ∧ maskInPlace .sdadel = 0x000F0000#32 ∧
    maskInPlace .sclh = 0x0000FF00#32 ∧ maskInPlace .scll = 0x000000FF#32) ∧
  (∀ F G : FieldName, F ≠ G → maskInPlace F &&& maskInPlace G = 0#32) ∧
  (maskInPlace .presc ||| maskInPlace .scldel ||| maskInPlace .sdadel ||| maskInPlace .sclh ||| maskInPlace .scll)
    = allFieldsMask ∧
  allFieldsMask &&& reservedMask = 0#32 ∧ allFieldsMask ||| reservedMask = 0xFFFFFFFF#32

/-- 10_state.md R19: DECODE answers a next state for every word, with the same fields as for the same word with bits 27:24
clear, and ENCODE always writes those bits as 0. -/
def Obligations.ReservedBitsAreIgnoredAndWrittenZero : Prop :=
  (∀ (w : RegWord) (s : State), ∃ f, exec (.decode w) s = .next { s with response := some (.fields f) } ∧
    exec (.decode (w &&& 0xF0FFFFFF#32)) s = .next { s with response := some (.fields f) }) ∧
  ∀ (p c d h l : RegWord) (s : State), ∃ r, exec (.encode p c d h l) s = .next { s with response := some (.word r) } ∧
    r.extractLsb' 24 4 = 0#4

/-- 40_codec.md R40, corner cases: each output depends on its own bit range alone, so a change in one range changes only
that field, and it does change that field. -/
def Obligations.OutputsDependOnTheirOwnRanges : Prop :=
  ∀ (w w' : RegWord) (s : State), ∃ f f', exec (.decode w) s = .next { s with response := some (.fields f) } ∧
    exec (.decode w') s = .next { s with response := some (.fields f') } ∧
    (f.presc = f'.presc ↔ w &&& 0xF0000000#32 = w' &&& 0xF0000000#32) ∧
    (f.scldel = f'.scldel ↔ w &&& 0x00F00000#32 = w' &&& 0x00F00000#32) ∧
    (f.sdadel = f'.sdadel ↔ w &&& 0x000F0000#32 = w' &&& 0x000F0000#32) ∧
    (f.sclh = f'.sclh ↔ w &&& 0x0000FF00#32 = w' &&& 0x0000FF00#32) ∧
    (f.scll = f'.scll ↔ w &&& 0x000000FF#32 = w' &&& 0x000000FF#32)

/-- 10_state.md R20, which the spec marks as derived from R18: the words that ENCODE can produce are exactly those with bits
27:24 zero, from every state. -/
def Obligations.EncodeProducesExactlyTheScrubbedWords : Prop :=
  ∀ (w : RegWord) (s : State),
    (∃ p c d h l, exec (.encode p c d h l) s = .next { s with response := some (.word w) }) ↔ w &&& 0x0F000000#32 = 0#32

/-- 40_codec.md R43: DECODE of an ENCODE gives each input modulo 2 to its field's width, from its own input alone, the
reserved bits zero; and DECODE gives (w >> o) mod 2^n. The spec marks R43 as derived from R40 and R41. -/
def Obligations.FieldwiseLaws : Prop :=
  (∀ (p c d h l : RegWord) (s : State), ∃ r f,
    exec (.encode p c d h l) s = .next { s with response := some (.word r) } ∧
    exec (.decode r) s = .next { s with response := some (.fields f) } ∧
    f.presc.toNat = p.toNat % 2 ^ 4 ∧ f.scldel.toNat = c.toNat % 2 ^ 4 ∧ f.sdadel.toNat = d.toNat % 2 ^ 4 ∧
    f.sclh.toNat = h.toNat % 2 ^ 8 ∧ f.scll.toNat = l.toNat % 2 ^ 8 ∧ r.toNat / 2 ^ 24 % 2 ^ 4 = 0) ∧
  ∀ (w : RegWord) (s : State), ∃ f, exec (.decode w) s = .next { s with response := some (.fields f) } ∧
    f.presc.toNat = w.toNat / 2 ^ 28 % 2 ^ 4 ∧ f.scldel.toNat = w.toNat / 2 ^ 20 % 2 ^ 4 ∧
    f.sdadel.toNat = w.toNat / 2 ^ 16 % 2 ^ 4 ∧ f.sclh.toNat = w.toNat / 2 ^ 8 % 2 ^ 8 ∧ f.scll.toNat = w.toNat % 2 ^ 8

/-- 40_codec.md R44: fields within their widths come back from ENCODE then DECODE; inputs of any value come back truncated
field by field, which the spec marks as derived from R40 and R41. -/
def Obligations.FieldsRoundTrip : Prop :=
  (∀ (f : Fields) (s : State), ∃ r,
    exec (.encode (f.presc.setWidth 32) (f.scldel.setWidth 32) (f.sdadel.setWidth 32) (f.sclh.setWidth 32)
      (f.scll.setWidth 32)) s = .next { s with response := some (.word r) } ∧
    exec (.decode r) s = .next { s with response := some (.fields f) }) ∧
  ∀ (p c d h l : RegWord) (s : State), ∃ r,
    exec (.encode p c d h l) s = .next { s with response := some (.word r) } ∧
    exec (.decode r) s = .next { s with response := some (.fields
      ⟨p.setWidth 4, c.setWidth 4, d.setWidth 4, h.setWidth 8, l.setWidth 8⟩) }

/-- 40_codec.md R45: DECODE then ENCODE gives `w & 0xF0FFFFFF`, which is `w` exactly when bits 27:24 of `w` are 0; and so on
texts, under either policy. The spec marks R45 as derived from R40, R41 and R19. -/
def Obligations.WordsRoundTripScrubbed : Prop :=
  (∀ (w : RegWord) (s : State), ∃ f,
    exec (.decode w) s = .next { s with response := some (.fields f) } ∧
    exec (.encode (f.presc.setWidth 32) (f.scldel.setWidth 32) (f.sdadel.setWidth 32) (f.sclh.setWidth 32)
      (f.scll.setWidth 32)) s = .next { s with response := some (.word (w &&& 0xF0FFFFFF#32)) }) ∧
  (∀ w : RegWord, w &&& 0xF0FFFFFF#32 = w ↔ w.extractLsb' 24 4 = 0#4) ∧
  ∀ (policy : WideHexPolicy) (w : RegWord), ∃ f,
    decodeText policy (formatHex w) = .ok f ∧ encodeText f = .ok (formatHex (w &&& 0xF0FFFFFF#32))

/-! ## The host's conversions -/

/-- 41_host_text.md R47: under the default policy PARSE_HEX accepts exactly the texts of the grammar, and on any other text
it raises ParseError with the text, under either policy. The grammar's edges are the spec's decision D6 (log entry 13). -/
def Obligations.ParseAcceptsExactlyTheGrammar : Prop :=
  ∀ s : Text, ((∃ w, parseHex .ignore s = .ok w) ↔ ∃ digits, hexGrammar s digits) ∧
    ((¬ ∃ digits, hexGrammar s digits) → ∀ policy, parseHex policy s = .error (.parseError s))

/-- 41_host_text.md R48, R49: a text of the grammar gives the low 32 bits of its digits' sum; under `reject` a sum of 2^32
or more raises ParseError with the text instead. The grammar's edges are log entry 13, the policy log entry 5; R48 takes the
table of digits from general knowledge where the source's examples do not fix it. -/
def Obligations.ParsedWordIsThePositionalValue : Prop :=
  ∀ s digits : Text, hexGrammar s digits →
    parseHex .ignore s = .ok (BitVec.ofNat 32 (positionalValue digits)) ∧
    (positionalValue digits < 2 ^ 32 → parseHex .reject s = .ok (BitVec.ofNat 32 (positionalValue digits))) ∧
    (2 ^ 32 ≤ positionalValue digits → parseHex .reject s = .error (.parseError s))

/-- 60_exceptions.md R60: PARSE_HEX raises ParseError with its own text exactly where the text is not in the grammar or,
under `reject`, where its value is 2^32 or more; and it raises nothing else. The grammar's edges are log entry 13, the policy
log entry 5. -/
def Obligations.ParseErrorNamesItsText : Prop :=
  ∀ (policy : WideHexPolicy) (s : Text) (e : HostError), parseHex policy s = .error e ↔ e = .parseError s ∧
    ((¬ ∃ digits, hexGrammar s digits) ∨
      policy = .reject ∧ ∃ digits, hexGrammar s digits ∧ 2 ^ 32 ≤ positionalValue digits)

/-- 41_host_text.md R51: FORMAT_HEX is ten characters, `0x` and the eight nibbles from bits 31:28 down, each an uppercase
digit. -/
def Obligations.FormattedTextSpellsTheNibbles : Prop :=
  ∀ r : RegWord, (formatHex r).length = 10 ∧ (formatHex r).take 2 = ['0', 'x'] ∧
    ∀ k, k < 8 → (formatHex r)[2 + k]? = "0123456789ABCDEF".toList[r.toNat / 16 ^ (7 - k) % 16]?

/-- PARSE_HEX takes back every text that FORMAT_HEX gives, under either policy (41_host_text.md R47 to R51; the policy is log
entry 5). -/
def Obligations.FormattedTextParsesBack : Prop :=
  ∀ (policy : WideHexPolicy) (r : RegWord), parseHex policy (formatHex r) = .ok r

/-- 41_host_text.md R50: TO_FIELD_WORD keeps the low 32 bits of every integer, negative ones in two's complement, and
raises InvalidFieldError with the field and the value for anything that is no integer; the low n bits of what it keeps are
the integer modulo 2^n. What negative values give is log entry 14, which values are no integers log entry 12; the spec marks
the last law as derived. -/
def Obligations.FieldConversionKeepsIntegersOnly : Prop :=
  (∀ (F : FieldName) (n : Int), toFieldWord F (.number (n : Rat)) = .ok (BitVec.ofInt 32 n)) ∧
  (∀ (F : FieldName) (x : HostValue), ¬ holdsInteger x → toFieldWord F x = .error (.invalidField F x)) ∧
  ∀ (n : Int) (k : Nat), k ≤ 32 → (((BitVec.ofInt 32 n &&& BitVec.ofNat 32 (2 ^ k - 1)).toNat : Nat) : Int) = n % 2 ^ k

/-- 60_exceptions.md R62: decode_text can raise only ParseError; encode_text names the first field in the order presc,
scldel, sdadel, sclh, scll whose value is no integer, whatever the later ones hold, and raises nothing where all are. The
order is the spec's decision D9 (log entry 15). -/
def Obligations.FirstInvalidFieldIsReported : Prop :=
  (∀ (policy : WideHexPolicy) (s : Text) (e : HostError), decodeText policy s = .error e → e = .parseError s) ∧
  (∀ (f : HostFields) (F : FieldName) (before after : List FieldName),
    before ++ F :: after = [.presc, .scldel, .sdadel, .sclh, .scll] →
    (∀ G ∈ before, holdsInteger (getHostField f G)) → ¬ holdsInteger (getHostField f F) →
      encodeText f = .error (.invalidField F (getHostField f F))) ∧
  ∀ f : HostFields, (∀ G : FieldName, holdsInteger (getHostField f G)) → ∃ t, encodeText f = .ok t

/-- 41_host_text.md R53 with R50 and R51: encode_text of five integers of any size and sign is the text of the word that
holds each modulo 2 to its field's width; none is an error. What negative values give is log entry 14. -/
def Obligations.EncodeTextTruncatesIntegers : Prop :=
  ∀ p c d h l : Int, ∃ w : RegWord,
    encodeText ⟨.number (p : Rat), .number (c : Rat), .number (d : Rat), .number (h : Rat), .number (l : Rat)⟩
      = .ok (formatHex w) ∧
    (w.toNat : Int) = p % 16 * 2 ^ 28 + c % 16 * 2 ^ 20 + d % 16 * 2 ^ 16 + h % 256 * 2 ^ 8 + l % 256

/-- 41_host_text.md R52: decode_text is PARSE_HEX, then the five fields of the word as host integers; a ParseError ends it
with no fields. The policy is log entry 5, the grammar's edges log entry 13. -/
def Obligations.DecodeTextGivesFieldsOrParseError : Prop :=
  ∀ (policy : WideHexPolicy) (s : Text),
    (∃ w : RegWord, parseHex policy s = .ok w ∧ decodeText policy s = .ok
      { presc := .number (((w.extractLsb' 28 4).toNat : Nat) : Rat), scldel := .number (((w.extractLsb' 20 4).toNat : Nat) : Rat),
        sdadel := .number (((w.extractLsb' 16 4).toNat : Nat) : Rat), sclh := .number (((w.extractLsb' 8 8).toNat : Nat) : Rat),
        scll := .number (((w.extractLsb' 0 8).toNat : Nat) : Rat) }) ∨
    parseHex policy s = .error (.parseError s) ∧ decodeText policy s = .error (.parseError s)

/-- The codes of 60_exceptions.md R58: 0 for success, 1 for every ParseError, 2 for every InvalidFieldError. -/
def Obligations.ErrorCodes : Prop :=
  errorCode none = 0 ∧ (∀ s, errorCode (some (.parseError s)) = 1) ∧ ∀ F x, errorCode (some (.invalidField F x)) = 2

/-! ## The callers and the user interface -/

/-- A request that a caller wants made stands on the ports after one host step, decoding to the same instruction whatever
the don't-care ports draw (30_encoding.md R32; log entries 2 and 8); the last response is kept (log entry 9). -/
def Obligations.QueuedRequestReachesThePorts : Prop :=
  ∀ (s : State) (c : Caller) (i : Instr) (rest : List Task), s.ports = none → s.queue = .request c i :: rest →
    ∃ q, step s = .next { s with ports := some q, queue := rest, draws := s.draws + 1 } ∧
      q.caller = c ∧ q.form = .block ∧ decodeRequest q.request = i

/-- The machine refines the pure functions: whatever calls the callers have made, the user interface among them, and in
whatever order, the host takes them up before the rest of the queue and finishes them all, in two steps a call or four at the
user interface (log entry 2); each caller has received what its own operands give (10_state.md R14, 60_exceptions.md R66,
41_host_text.md R52, R53), and at the user interface also what a re-encode gives where there is one (R56, log entry 7). What the
host shows follows from what the user interface received: its fields and texts as R54 and R55 say, and beyond those rules by the
model's choices: the messages are a history that only grows (log entry 10), a call that a program makes for the user interface
changes no shown input (log entry 23), on an InvalidFieldError a message is shown and the text stays (log entry 16, the spec's
decision D16), on a ParseError the fields stay as last shown, edited or not (log entry 25), and a bare response shows nothing
(log entry 11). The outcomes are kept as log entry 11 says; a text so shown is
not decoded (log entry 24). With nothing else in the queue the steps left over are idle ones (log entry 3). -/
def Obligations.EveryCallReceivesItsOwnResult : Prop :=
  ∀ (s : State) (calls : List (Caller × Call)) (rest : List Task), s.ports = none →
    s.queue = calls.map (fun x => taskOfCall x.1 x.2) ++ rest →
    ∃ n t answers, n ≤ (calls.map fun x => stepsOfCall x.1).sum ∧ runsTo n s t ∧ t.ports = none ∧ t.queue = rest ∧
      List.Forall₂ (fun x answer => answersOfCall s.wideHexPolicy x.1 x.2 answer) calls answers ∧
      t.outcomes = s.outcomes ++ answers.flatten ∧ t.host = viewAfter s.host answers.flatten ∧
      (rest = [] → runsTo (calls.map fun x => stepsOfCall x.1).sum s t)

/-- Responses are the same under every interleaving (20_memory.md R30): two orders of the same calls, those of the user
interface among them, give every caller the result of each of its calls, and give the callers other than the user interface the
same outcomes up to that order. (The user interface may receive re-encoded texts besides, log entry 7.) The steps are log
entries 2 and 3, the outcome record log entry 11. -/
def Obligations.InterleavingDoesNotMatter : Prop :=
  ∀ (s s' : State) (calls calls' : List (Caller × Call)), calls.Perm calls' → s.ports = none →
    s.queue = calls.map (fun x => taskOfCall x.1 x.2) → s' = { s with queue := calls'.map (fun x => taskOfCall x.1 x.2) } →
    ∃ t t', runsTo (calls.map fun x => stepsOfCall x.1).sum s t ∧ runsTo (calls'.map fun x => stepsOfCall x.1).sum s' t' ∧
      t.queue = [] ∧ t'.queue = [] ∧
      (calls.map fun x => (x.1, resultOfCall s.wideHexPolicy x.2)).Subperm (t.outcomes.drop s.outcomes.length) ∧
      (calls.map fun x => (x.1, resultOfCall s.wideHexPolicy x.2)).Subperm (t'.outcomes.drop s'.outcomes.length) ∧
      (othersAmong (t.outcomes.drop s.outcomes.length)).Perm (othersAmong (t'.outcomes.drop s'.outcomes.length))

/-- 41_host_text.md R54, a text that does not parse: one step shows the text and the message, leaves the shown fields and the
last response as they were, makes no request, and gives the error to the caller. The one step is log entry 2, that the changed
text is shown log entry 23, the history of messages log entry 10, the outcome record log entry 11, that the last response is
kept log entry 9; that a field edited since the last text that parsed stays as edited is log entry 25. -/
def Obligations.TextThatFailsToParseKeepsTheFields : Prop :=
  ∀ (s : State) (x : Text) (rest : List Task), s.ports = none → s.queue = .textChanged x :: rest →
    (¬ ∃ w, parseHex s.wideHexPolicy x = .ok w) →
    step s = .next { s with
      host := { text := x, fields := s.host.fields, messages := s.host.messages ++ [.parseError x] }
      queue := rest, outcomes := s.outcomes ++ [(.ui, .error (.parseError x))] }

/-- 41_host_text.md R54, a text that parses: two steps show its five fields with no message, and then the queue goes on,
or the fields are encoded again first: the source leaves that open (R56, log entry 7), so both are admitted. The two steps
are log entry 2, the changed text shown log entry 23, the outcome record log entry 11. -/
def Obligations.TextThatParsesShowsItsFields : Prop :=
  ∀ (s : State) (x : Text) (rest : List Task) (f : HostFields), s.ports = none → s.queue = .textChanged x :: rest →
    decodeText s.wideHexPolicy x = .ok f →
    ∃ t, runsTo 2 s t ∧ t.ports = none ∧ t.host = { text := x, fields := f, messages := s.host.messages } ∧
      t.outcomes = s.outcomes ++ [(.ui, .fields f)] ∧ (t.queue = rest ∨ t.queue = .callEncode .ui f :: rest)

/-- 41_host_text.md R55, a field input changes and all five are integers: two steps show the text of the current five
field values, with no message, and the queue goes on. The two steps are log entry 2, the changed field shown log entry 23,
the outcome record log entry 11; that the text so shown is not decoded is log entry 24. -/
def Obligations.FieldChangeShowsTheText : Prop :=
  ∀ (s : State) (F : FieldName) (x : HostValue) (rest : List Task) (u : Text), s.ports = none →
    s.queue = .fieldChanged F x :: rest → encodeText (setHostField s.host.fields F x) = .ok u →
    ∃ t, runsTo 2 s t ∧ t.ports = none ∧
      t.host = { text := u, fields := setHostField s.host.fields F x, messages := s.host.messages } ∧
      t.outcomes = s.outcomes ++ [(.ui, .text u)] ∧ t.queue = rest

/-- 41_host_text.md R55, a field input changes and a value is no integer: one step shows the message and leaves the text it
last showed and the last response as they were; no request is made. This duty is the spec's decision D16 (log entry 16); the
one step is log entry 2, that the changed field is shown log entry 23, the history of messages log entry 10, the outcome record
log entry 11, that the last response is kept log entry 9. -/
def Obligations.FieldChangeThatFailsKeepsTheText : Prop :=
  ∀ (s : State) (F : FieldName) (x : HostValue) (rest : List Task) (e : HostError), s.ports = none →
    s.queue = .fieldChanged F x :: rest → encodeText (setHostField s.host.fields F x) = .error e →
    step s = .next { s with
      host := { text := s.host.text, fields := setHostField s.host.fields F x, messages := s.host.messages ++ [e] }
      queue := rest, outcomes := s.outcomes ++ [(.ui, .error e)] }

/-- With no request on the ports and nothing asked for, a step changes nothing: the caller "waits for the next input change"
(41_host_text.md R56). That such a step answers a next state is the model's choice (log entry 3), and so is that the last
response is kept (log entry 9). -/
def Obligations.IdleMachineWaits : Prop :=
  ∀ s : State, s.ports = none → s.queue = [] → step s = .next s

/-- 60_exceptions.md R59: a step that gives a caller an error is a host step: no request stood on the ports, none is made,
the block's response is as it was, and nothing but that error is received. The step's grain is log entry 2, the outcome record
log entry 11, that the last response is kept log entry 9. -/
def Obligations.ErrorsNeverReachTheBlock : Prop :=
  ∀ (s t : State) (c : Caller) (e : HostError), step s = .next t → (c, .error e) ∈ t.outcomes.drop s.outcomes.length →
    s.ports = none ∧ t.ports = none ∧ t.response = s.response ∧ t.outcomes = s.outcomes ++ [(c, .error e)]

/-! ## What every step keeps -/

/-- Every step keeps every response and outcome legal: encoded words have bits 27:24 zero (10_state.md R20), texts are in
FORMAT_HEX's form (41_host_text.md R51), decoded fields are in their ranges (10_state.md R16, R17). The response that stays and
the outcome record are log entries 9 and 11. -/
def Obligations.StepKeepsOutcomesLegal : Prop :=
  ∀ s t : State, outcomesLegal s → step s = .next t → outcomesLegal t

/-- At reset there is no response and no outcome, so all of them are legal (10_state.md R23). -/
def Obligations.ResetOutcomesAreLegal : Prop := outcomesLegal State.reset

/-- Every step keeps the messages shown equal to the errors the user interface received, in order (41_host_text.md R54,
R55; the histories of messages and outcomes are log entries 10 and 11). -/
def Obligations.StepKeepsMessagesMatchingErrors : Prop :=
  ∀ s t : State, messagesMatchErrors s → step s = .next t → messagesMatchErrors t

/-- At reset no message is shown and no error was received (log entries 10 and 11). -/
def Obligations.ResetMessagesMatchErrors : Prop := messagesMatchErrors State.reset

/-- No step changes the parameter WIDE_HEX_POLICY (00_scope.md R5), takes back an outcome or a message, or leaves the ports
without a response once there was one; a step that begins with a request on the ports ends with them free. Where the policy
stands is log entry 5, that the response stays log entry 9, the histories log entries 10 and 11; that one step performs a
request, delivers its response and frees the ports is log entry 2. -/
def Obligations.StepKeepsPolicyAndHistory : Prop :=
  ∀ s t : State, step s = .next t → t.wideHexPolicy = s.wideHexPolicy ∧ s.outcomes <+: t.outcomes ∧
    s.host.messages <+: t.host.messages ∧ (s.response.isSome → t.response.isSome) ∧ (s.ports.isSome → t.ports = none)

/-! ## The program syntax and a platform's bytes -/

/-- A `DECODE` line with an integer literal, decimal or `0x` hex, is read as that word where it fits in 32 bits and refused by
name where it does not, and a `decode("…")` line with any text that holds no quote is read as that text (30_encoding.md R39; the
lexical details are log entry 18). -/
def Obligations.DecodeLinesAreReadAsWritten : Prop :=
  (∀ (t : Text) (n : Nat), spellsInteger t n → n < 2 ^ 32 → parseLine ("DECODE ".toList ++ t) = .ok (some (.decode n))) ∧
  (∀ (t : Text) (n : Nat), spellsInteger t n → 2 ^ 32 ≤ n → parseLine ("DECODE ".toList ++ t) = .error (.literalTooWide t)) ∧
  ∀ t : Text, '"' ∉ t → parseLine ("decode(\"".toList ++ t ++ "\")".toList) = .ok (some (.decodeText t))

/-- Every line the reader accepts is well formed: its literals fit in 32 bits (30_encoding.md R39). -/
def Obligations.AcceptedLinesAreWellFormed : Prop :=
  ∀ (t : Text) (l : Line), parseLine t = .ok (some l) → l.wellFormed = true

/-- A word stored by a platform of either byte order reads back as the word, and the two orders are each other's reverse
(20_memory.md R25; log entry 17). -/
def Obligations.StoredWordReadsBack : Prop :=
  ∀ w : RegWord, (∀ order, ∃ b0 b1 b2 b3, storedBytes order w = [b0, b1, b2, b3] ∧ wordOfStored order b0 b1 b2 b3 = w) ∧
    storedBytes .big w = (storedBytes .little w).reverse

/-- An `ENCODE` line with five integer literals, each decimal or `0x` hex, is read as its operands in the order presc, scldel,
sdadel, sclh, scll (30_encoding.md R39; the lexical details are log entry 18). -/
def Obligations.EncodeLinesAreReadAsWritten : Prop :=
  ∀ (tp tc td th tl : Text) (p c d h l : Nat), spellsInteger tp p → spellsInteger tc c → spellsInteger td d →
    spellsInteger th h → spellsInteger tl l → p < 2 ^ 32 → c < 2 ^ 32 → d < 2 ^ 32 → h < 2 ^ 32 → l < 2 ^ 32 →
    parseLine ("ENCODE ".toList ++ tp ++ ", ".toList ++ tc ++ ", ".toList ++ td ++ ", ".toList ++ th ++ ", ".toList ++ tl)
      = .ok (some (.encode p c d h l))

/-- A line `encode` of a record is read as the fields it names, in any order, each with the value written for it, and every
field it omits is missing (30_encoding.md R39). The spellings of values are log entry 18, fractions as host values log entry
12. -/
def Obligations.RecordLinesAreReadAsWritten : Prop :=
  ∀ items : List (FieldName × Text × HostValue), (items.map fun x => x.1).Nodup →
    (∀ x ∈ items, spellsValue x.2.1 x.2.2) →
    ∃ f, parseLine (encodeCallText (items.map fun x => (x.1, x.2.1))) = .ok (some (.encodeText f)) ∧
      (∀ x ∈ items, getHostField f x.1 = x.2.2) ∧
      ∀ F : FieldName, F ∉ items.map (fun x => x.1) → getHostField f F = .missing

/-- A semicolon starts a comment: what follows it changes nothing of how a line is read (30_encoding.md R39; a line without an
operation is log entry 18). -/
def Obligations.CommentsChangeNothing : Prop :=
  ∀ (t comment : Text) (l : Option Line), parseLine t = .ok l → parseLine (t ++ ';' :: comment) = .ok l
end

