-- ==== Sys2Proof/Laws/Assembler.lean ====
section
/-! SUPPORT. How a line falls into tokens, one lemma per kind of token: a proof about a line puts these together and never
unfolds the reader. -/

namespace Sys2Proof.Machine

/-- A character of a word goes on with the word. -/
theorem tokens_inWord_cons (b : Text) {c : Char} (rest : Text) (hc : isWordChar c = true) :
    tokens (.inWord b) (c :: rest) = tokens (.inWord (c :: b)) rest := by
  simp only [tokens, hc, if_true]

/-- A character of a word between words starts one. -/
theorem tokens_between_cons {c : Char} (rest : Text) (hc : isWordChar c = true) :
    tokens .between (c :: rest) = tokens (.inWord [c]) rest := by
  simp only [tokens, hc, if_true]

/-- A word that the end of the line closes. -/
theorem tokens_inWord_end (b w : Text) (hw : ∀ c ∈ w, isWordChar c = true) :
    tokens (.inWord b) w = .ok [.word (b.reverse ++ w)] := by
  induction w generalizing b with
  | nil => simp [tokens]
  | cons c rest ih =>
    rw [tokens_inWord_cons _ _ (hw c (by simp)), ih _ fun x hx => hw x (by simp [hx])]
    simp

/-- A word that another character closes: the rest of the line is read from that character on. -/
theorem tokens_inWord_stop (b w : Text) (c : Char) (rest : Text) (hw : ∀ x ∈ w, isWordChar x = true)
    (hc : isWordChar c = false) :
    tokens (.inWord b) (w ++ c :: rest) = (tokens .between (c :: rest)).map (.word (b.reverse ++ w) :: ·) := by
  induction w generalizing b with
  | nil =>
    simp only [List.nil_append, tokens, hc, Bool.false_eq_true, if_false, finishWord, List.append_nil]
    split_ifs
    · rfl
    · rfl
    · cases tokens .between rest <;> rfl
    · rfl
    · rfl
  | cons x w ih =>
    rw [List.cons_append, tokens_inWord_cons _ _ (hw x (by simp)), ih _ fun y hy => hw y (by simp [hy])]
    simp

/-- A line that is one word. -/
theorem tokens_word_end {w : Text} (hne : w ≠ []) (hw : ∀ c ∈ w, isWordChar c = true) : tokens .between w = .ok [.word w] := by
  cases w with
  | nil => exact absurd rfl hne
  | cons c rest =>
    rw [tokens_between_cons _ (hw c (by simp)), tokens_inWord_end _ _ fun x hx => hw x (by simp [hx])]
    rfl

/-- A line that begins with a word. -/
theorem tokens_word_stop {w : Text} {c : Char} {rest : Text} (hne : w ≠ []) (hw : ∀ x ∈ w, isWordChar x = true)
    (hc : isWordChar c = false) :
    tokens .between (w ++ c :: rest) = (tokens .between (c :: rest)).map (.word w :: ·) := by
  cases w with
  | nil => exact absurd rfl hne
  | cons x w =>
    rw [List.cons_append, tokens_between_cons _ (hw x (by simp)), tokens_inWord_stop _ _ _ _ (fun y hy => hw y (by simp [hy])) hc]
    rfl

/-- A space between words is read over. -/
@[simp] theorem tokens_space (rest : Text) : tokens .between (' ' :: rest) = tokens .between rest := rfl

/-- A punctuation mark between words. -/
theorem tokens_mark {c : Char} (rest : Text) (hm : isMark c = true) :
    tokens .between (c :: rest) = (tokens .between rest).map (.mark c :: ·) := by
  have plain : isWordChar c = false ∧ c ≠ ';' ∧ c ≠ '"' := by
    simp only [isMark, Bool.or_eq_true, beq_iff_eq] at hm
    rcases hm with ((((rfl | rfl) | rfl) | rfl) | rfl) | rfl <;> decide
  rw [tokens, if_neg (by simp [plain.1]), if_neg plain.2.1, if_neg plain.2.2, if_pos hm]

/-- The inside of a quoted text, up to its closing quote. -/
theorem tokens_inQuote (b u rest : Text) (hu : '"' ∉ u) :
    tokens (.inQuote b) (u ++ '"' :: rest) = (tokens .between rest).map (.quoted (b.reverse ++ u) :: ·) := by
  induction u generalizing b with
  | nil => simp [tokens]
  | cons c u ih =>
    rw [List.cons_append, tokens, if_neg (by rintro rfl; simp at hu), ih _ fun h => hu (by simp [h])]
    simp

/-- A quoted text between words. -/
theorem tokens_quoted (u rest : Text) (hu : '"' ∉ u) :
    tokens .between ('"' :: (u ++ '"' :: rest)) = (tokens .between rest).map (.quoted u :: ·) := by
  rw [tokens, if_neg (by decide), if_neg (by decide), if_pos rfl, tokens_inQuote _ _ _ hu]
  rfl

end Sys2Proof.Machine
end

