-- ==== Sys2Proof/Laws/Codec.lean ====
section
/-! SUPPORT. What the operand shaping of the two operations does to a word, as a number and bit by bit. -/

namespace Sys2Proof.Machine

@[simp] theorem fieldMask_toNat (F : FieldName) : (fieldMask F).toNat = 2 ^ fieldWidth F - 1 := by
  cases F <;> rfl

theorem fieldMask_getLsbD (F : FieldName) (j : Nat) : (fieldMask F).getLsbD j = decide (j < fieldWidth F) := by
  by_cases hj : j < 32
  · cases F <;> (revert hj; revert j; decide)
  · rw [BitVec.getLsbD_of_ge _ _ (by omega)]
    cases F <;> (symm; rw [decide_eq_false_iff_not]; simp only [fieldWidth]; omega)

/-- A field lies inside the word. -/
theorem field_fits (F : FieldName) : fieldOffset F + fieldWidth F ≤ 32 := by
  cases F <;> decide

/-- DECODE's shaping is a quotient and a remainder (40_codec.md R42, R43). -/
theorem extractField_toNat (F : FieldName) (w : RegWord) :
    (extractField F w).toNat = w.toNat / 2 ^ fieldOffset F % 2 ^ fieldWidth F := by
  rw [extractField, BitVec.toNat_and, fieldMask_toNat, Nat.and_two_pow_sub_one_eq_mod, BitVec.toNat_ushiftRight,
    Nat.shiftRight_eq_div_pow]

/-- ENCODE's shaping sets the bits of its field's range to the value's low bits, and no others (40_codec.md R41). -/
theorem placeField_getLsbD (F : FieldName) (v : RegWord) (i : Nat) :
    (placeField F v).getLsbD i =
      (decide (fieldOffset F ≤ i ∧ i < fieldOffset F + fieldWidth F) && v.getLsbD (i - fieldOffset F)) := by
  have fits := field_fits F
  simp only [placeField, BitVec.getLsbD_shiftLeft, BitVec.getLsbD_and, fieldMask_getLsbD]
  by_cases low : fieldOffset F ≤ i <;> by_cases high : i < fieldOffset F + fieldWidth F
  · have inWord : i < 32 := by omega
    have inField : i - fieldOffset F < fieldWidth F := by omega
    have notBelow : ¬ i < fieldOffset F := by omega
    simp [*]
  · have notInField : ¬ i - fieldOffset F < fieldWidth F := by omega
    simp [*]
  · have below : i < fieldOffset F := by omega
    simp [*]
  · omega

/-- A bit of an encoded word is the bit of the field whose range it lies in (40_codec.md R41). -/
theorem encodeWord_getLsbD (p c d h l : RegWord) (i : Nat) :
    (encodeWord p c d h l).getLsbD i =
      ((placeField .presc p).getLsbD i || (placeField .scldel c).getLsbD i || (placeField .sdadel d).getLsbD i ||
        (placeField .sclh h).getLsbD i || (placeField .scll l).getLsbD i) := by
  simp only [encodeWord, BitVec.getLsbD_or]

end Sys2Proof.Machine
end

