-- ==== Sys2Proof/Laws/PerInstr.lean ====
section
/-! SUPPORT. What holds of every instruction as syntax, one lemma per constructor. -/

/-- The request that an instruction is encoded to decodes to that instruction, whatever stands on the ports it does not
use (30_encoding.md R32, R38). -/
def Sys2Proof.Laws.RequestRoundTrip.Statement (i : Sys2Proof.Instr) : Prop :=
  ∀ fill : Sys2Proof.Request, Sys2Proof.decodeRequest (Sys2Proof.encodeRequest fill i) = i

theorem Sys2Proof.Laws.RequestRoundTrip.decode (regIn : Sys2Proof.RegWord) :
    Sys2Proof.Laws.RequestRoundTrip.Statement (.decode regIn) := fun _ => rfl

theorem Sys2Proof.Laws.RequestRoundTrip.encode (prescIn scldelIn sdadelIn sclhIn scllIn : Sys2Proof.RegWord) :
    Sys2Proof.Laws.RequestRoundTrip.Statement (.encode prescIn scldelIn sdadelIn sclhIn scllIn) := fun _ => rfl

/-- The family's two lemmas as one: the decoder reads back any encoded instruction. -/
@[simp] theorem Sys2Proof.decodeRequest_encodeRequest (fill : Sys2Proof.Request) (i : Sys2Proof.Instr) :
    Sys2Proof.decodeRequest (Sys2Proof.encodeRequest fill i) = i := by
  cases i with
  | decode w => exact Sys2Proof.Laws.RequestRoundTrip.decode w fill
  | encode p c d h l => exact Sys2Proof.Laws.RequestRoundTrip.encode p c d h l fill
end

