-- ==== Sys2Proof/Laws/Decode.lean ====
section
/-! SUPPORT. The layout of a request in bits and bytes. -/

namespace Sys2Proof

@[simp] theorem bytesOfNat_length (count n : Nat) : (bytesOfNat count n).length = count := by
  induction count generalizing n with
  | zero => rfl
  | succ count ih => simp [bytesOfNat, ih]

/-- The bytes of a number hold it modulo 256 to their count. -/
theorem natOfBytes_bytesOfNat (count n : Nat) : natOfBytes (bytesOfNat count n) = n % 256 ^ count := by
  induction count generalizing n with
  | zero => simp [bytesOfNat, natOfBytes, Nat.mod_one]
  | succ count ih =>
    rw [bytesOfNat, natOfBytes, ih, BitVec.toNat_ofNat]
    show n % 256 + 256 * (n / 256 % 256 ^ count) = _
    rw [pow_succ', Nat.mod_mul]

/-- Where each port's bits stand in a request (log entry 1). -/
theorem Request.toBits_getLsbD (r : Request) (i : Nat) :
    r.toBits.getLsbD i =
      if i < 1 then r.op.getLsbD i else if i < 33 then r.regIn.getLsbD (i - 1)
      else if i < 65 then r.prescIn.getLsbD (i - 33) else if i < 97 then r.scldelIn.getLsbD (i - 65)
      else if i < 129 then r.sdadelIn.getLsbD (i - 97) else if i < 161 then r.sclhIn.getLsbD (i - 129)
      else r.scllIn.getLsbD (i - 161) := by
  obtain ⟨o, w, p, c, d, h, l⟩ := r
  show (l ++ h ++ d ++ c ++ p ++ w ++ o).getLsbD i = _
  simp only [BitVec.getLsbD_append]
  simp only [Nat.sub_sub, Nat.reduceAdd]
  split_ifs <;> first | with_reducible rfl | omega

end Sys2Proof
end

