-- ==== Sys2Proof/Laws/HostText.lean ====
section
/-! SUPPORT. What the host's conversions can do, each said once. -/

namespace Sys2Proof.Machine

/-- Where every character is a digit, the value read is the one before it times the base's power, plus the digits' own. -/
theorem digitsValue_cons (base : Nat) (digit : Char → Option Nat) (acc d : Nat) (c : Char) (rest : Text)
    (h : digit c = some d) : digitsValue base digit acc (c :: rest) = digitsValue base digit (acc * base + d) rest := by
  simp only [digitsValue, h]

/-- A string that has a value holds digits only. -/
theorem digitsValue_all_digits {base : Nat} {digit : Char → Option Nat} {acc v : Nat} {s : Text}
    (h : digitsValue base digit acc s = some v) : ∀ c ∈ s, (digit c).isSome := by
  induction s generalizing acc with
  | nil => simp
  | cons c rest ih =>
    simp only [digitsValue] at h
    split at h
    · next d hd =>
      intro x hx
      rcases List.mem_cons.1 hx with rfl | hx
      · simp [hd]
      · exact ih h x hx
    · cases h

@[simp] theorem hexDigits_length (count : Nat) (r : RegWord) : (hexDigits count r).length = count := by
  induction count with
  | zero => rfl
  | succ count ih => simp [hexDigits, ih]

/-- decode_text and its request end alike: with the word PARSE_HEX gives, or with the error it raises (41_host_text.md R52). -/
theorem decodeTextRequest_cases (policy : WideHexPolicy) (s : Text) :
    (∃ w, parseHex policy s = .ok w ∧ decodeTextRequest policy s = .ok (.decode w) ∧
      decodeText policy s = .ok (hostFieldsOf (decodeWord w))) ∨
    ∃ e, parseHex policy s = .error e ∧ decodeTextRequest policy s = .error e ∧ decodeText policy s = .error e := by
  cases h : parseHex policy s with
  | ok w => exact .inl ⟨w, rfl, by simp only [decodeTextRequest, h], by simp only [decodeText, h]⟩
  | error e => exact .inr ⟨e, rfl, by simp only [decodeTextRequest, h], by simp only [decodeText, h]⟩

/-- encode_text and its request end alike: with an ENCODE and the text of its word, or with the same error
(41_host_text.md R53). -/
theorem encodeTextRequest_cases (f : HostFields) :
    (∃ p c d h l, encodeTextRequest f = .ok (.encode p c d h l) ∧ encodeText f = .ok (formatHex (encodeWord p c d h l))) ∨
    ∃ e, encodeTextRequest f = .error e ∧ encodeText f = .error e := by
  unfold encodeText encodeTextRequest
  cases toFieldWord .presc f.presc with
  | error e => exact .inr ⟨e, rfl, rfl⟩
  | ok p =>
  cases toFieldWord .scldel f.scldel with
  | error e => exact .inr ⟨e, rfl, rfl⟩
  | ok c =>
  cases toFieldWord .sdadel f.sdadel with
  | error e => exact .inr ⟨e, rfl, rfl⟩
  | ok d =>
  cases toFieldWord .sclh f.sclh with
  | error e => exact .inr ⟨e, rfl, rfl⟩
  | ok h =>
  cases toFieldWord .scll f.scll with
  | error e => exact .inr ⟨e, rfl, rfl⟩
  | ok l => exact .inl ⟨p, c, d, h, l, rfl, rfl⟩

/-- Setting a field and reading a field of the host's five. -/
theorem getHostField_setHostField (f : HostFields) (F G : FieldName) (x : HostValue) :
    getHostField (setHostField f F x) G = if G = F then x else getHostField f G := by
  cases F <;> cases G <;> rfl

end Sys2Proof.Machine
end

