-- ==== Sys2Proof/Laws/State.lean ====
section
/-! SUPPORT. What each update of the state does to each field, one lemma per field, so that no proof unfolds a record. -/

namespace Sys2Proof.Machine

variable (s : State)

/-! `respond` -/

@[simp] theorem State.respond_ports (r : Response) : (s.respond r).ports = s.ports := rfl
@[simp] theorem State.respond_response (r : Response) : (s.respond r).response = some r := rfl
@[simp] theorem State.respond_host (r : Response) : (s.respond r).host = s.host := rfl
@[simp] theorem State.respond_wideHexPolicy (r : Response) : (s.respond r).wideHexPolicy = s.wideHexPolicy := rfl
@[simp] theorem State.respond_queue (r : Response) : (s.respond r).queue = s.queue := rfl
@[simp] theorem State.respond_outcomes (r : Response) : (s.respond r).outcomes = s.outcomes := rfl
@[simp] theorem State.respond_draws (r : Response) : (s.respond r).draws = s.draws := rfl

/-! `issue` -/

@[simp] theorem State.issue_ports (c : Caller) (form : CallForm) (i : Instr) : (s.issue c form i).ports =
    some ⟨encodeRequest (Config.dontCare s.draws) i, c, form⟩ := rfl
@[simp] theorem State.issue_response (c : Caller) (form : CallForm) (i : Instr) : (s.issue c form i).response = s.response := rfl
@[simp] theorem State.issue_host (c : Caller) (form : CallForm) (i : Instr) : (s.issue c form i).host = s.host := rfl
@[simp] theorem State.issue_wideHexPolicy (c : Caller) (form : CallForm) (i : Instr) : (s.issue c form i).wideHexPolicy = s.wideHexPolicy := rfl
@[simp] theorem State.issue_queue (c : Caller) (form : CallForm) (i : Instr) : (s.issue c form i).queue = s.queue := rfl
@[simp] theorem State.issue_outcomes (c : Caller) (form : CallForm) (i : Instr) : (s.issue c form i).outcomes = s.outcomes := rfl
@[simp] theorem State.issue_draws (c : Caller) (form : CallForm) (i : Instr) : (s.issue c form i).draws = s.draws + 1 := rfl

/-! `releasePorts` -/

@[simp] theorem State.releasePorts_ports : s.releasePorts.ports = none := rfl
@[simp] theorem State.releasePorts_response : s.releasePorts.response = s.response := rfl
@[simp] theorem State.releasePorts_host : s.releasePorts.host = s.host := rfl
@[simp] theorem State.releasePorts_wideHexPolicy : s.releasePorts.wideHexPolicy = s.wideHexPolicy := rfl
@[simp] theorem State.releasePorts_queue : s.releasePorts.queue = s.queue := rfl
@[simp] theorem State.releasePorts_outcomes : s.releasePorts.outcomes = s.outcomes := rfl
@[simp] theorem State.releasePorts_draws : s.releasePorts.draws = s.draws := rfl

/-! `record` -/

@[simp] theorem State.record_ports (c : Caller) (o : CallOutcome) : (s.record c o).ports = s.ports := rfl
@[simp] theorem State.record_response (c : Caller) (o : CallOutcome) : (s.record c o).response = s.response := rfl
@[simp] theorem State.record_host (c : Caller) (o : CallOutcome) : (s.record c o).host = s.host := rfl
@[simp] theorem State.record_wideHexPolicy (c : Caller) (o : CallOutcome) : (s.record c o).wideHexPolicy = s.wideHexPolicy := rfl
@[simp] theorem State.record_queue (c : Caller) (o : CallOutcome) : (s.record c o).queue = s.queue := rfl
@[simp] theorem State.record_outcomes (c : Caller) (o : CallOutcome) : (s.record c o).outcomes = s.outcomes ++ [(c, o)] := rfl
@[simp] theorem State.record_draws (c : Caller) (o : CallOutcome) : (s.record c o).draws = s.draws := rfl

/-! `setQueue` -/

@[simp] theorem State.setQueue_ports (q : List Task) : (s.setQueue q).ports = s.ports := rfl
@[simp] theorem State.setQueue_response (q : List Task) : (s.setQueue q).response = s.response := rfl
@[simp] theorem State.setQueue_host (q : List Task) : (s.setQueue q).host = s.host := rfl
@[simp] theorem State.setQueue_wideHexPolicy (q : List Task) : (s.setQueue q).wideHexPolicy = s.wideHexPolicy := rfl
@[simp] theorem State.setQueue_queue (q : List Task) : (s.setQueue q).queue = q := rfl
@[simp] theorem State.setQueue_outcomes (q : List Task) : (s.setQueue q).outcomes = s.outcomes := rfl
@[simp] theorem State.setQueue_draws (q : List Task) : (s.setQueue q).draws = s.draws := rfl

/-! `showText` -/

@[simp] theorem State.showText_ports (x : Text) : (s.showText x).ports = s.ports := rfl
@[simp] theorem State.showText_response (x : Text) : (s.showText x).response = s.response := rfl
@[simp] theorem State.showText_host_text (x : Text) : (s.showText x).host.text = x := rfl
@[simp] theorem State.showText_host_fields (x : Text) : (s.showText x).host.fields = s.host.fields := rfl
@[simp] theorem State.showText_host_messages (x : Text) : (s.showText x).host.messages = s.host.messages := rfl
@[simp] theorem State.showText_wideHexPolicy (x : Text) : (s.showText x).wideHexPolicy = s.wideHexPolicy := rfl
@[simp] theorem State.showText_queue (x : Text) : (s.showText x).queue = s.queue := rfl
@[simp] theorem State.showText_outcomes (x : Text) : (s.showText x).outcomes = s.outcomes := rfl
@[simp] theorem State.showText_draws (x : Text) : (s.showText x).draws = s.draws := rfl

/-! `showFields` -/

@[simp] theorem State.showFields_ports (f : HostFields) : (s.showFields f).ports = s.ports := rfl
@[simp] theorem State.showFields_response (f : HostFields) : (s.showFields f).response = s.response := rfl
@[simp] theorem State.showFields_host_text (f : HostFields) : (s.showFields f).host.text = s.host.text := rfl
@[simp] theorem State.showFields_host_fields (f : HostFields) : (s.showFields f).host.fields = f := rfl
@[simp] theorem State.showFields_host_messages (f : HostFields) : (s.showFields f).host.messages = s.host.messages := rfl
@[simp] theorem State.showFields_wideHexPolicy (f : HostFields) : (s.showFields f).wideHexPolicy = s.wideHexPolicy := rfl
@[simp] theorem State.showFields_queue (f : HostFields) : (s.showFields f).queue = s.queue := rfl
@[simp] theorem State.showFields_outcomes (f : HostFields) : (s.showFields f).outcomes = s.outcomes := rfl
@[simp] theorem State.showFields_draws (f : HostFields) : (s.showFields f).draws = s.draws := rfl

/-! `showMessage` -/

@[simp] theorem State.showMessage_ports (e : HostError) : (s.showMessage e).ports = s.ports := rfl
@[simp] theorem State.showMessage_response (e : HostError) : (s.showMessage e).response = s.response := rfl
@[simp] theorem State.showMessage_host_text (e : HostError) : (s.showMessage e).host.text = s.host.text := rfl
@[simp] theorem State.showMessage_host_fields (e : HostError) : (s.showMessage e).host.fields = s.host.fields := rfl
@[simp] theorem State.showMessage_host_messages (e : HostError) : (s.showMessage e).host.messages = s.host.messages ++ [e] := rfl
@[simp] theorem State.showMessage_wideHexPolicy (e : HostError) : (s.showMessage e).wideHexPolicy = s.wideHexPolicy := rfl
@[simp] theorem State.showMessage_queue (e : HostError) : (s.showMessage e).queue = s.queue := rfl
@[simp] theorem State.showMessage_outcomes (e : HostError) : (s.showMessage e).outcomes = s.outcomes := rfl
@[simp] theorem State.showMessage_draws (e : HostError) : (s.showMessage e).draws = s.draws := rfl

/-! `maybeReencode` -/

@[simp] theorem State.maybeReencode_ports (f : HostFields) : (s.maybeReencode f).ports = s.ports := rfl
@[simp] theorem State.maybeReencode_response (f : HostFields) : (s.maybeReencode f).response = s.response := rfl
@[simp] theorem State.maybeReencode_host (f : HostFields) : (s.maybeReencode f).host = s.host := rfl
@[simp] theorem State.maybeReencode_wideHexPolicy (f : HostFields) : (s.maybeReencode f).wideHexPolicy = s.wideHexPolicy := rfl
@[simp] theorem State.maybeReencode_queue (f : HostFields) : (s.maybeReencode f).queue =
    if Config.reencodes s.draws then .callEncode .ui f :: s.queue else s.queue := rfl
@[simp] theorem State.maybeReencode_outcomes (f : HostFields) : (s.maybeReencode f).outcomes = s.outcomes := rfl
@[simp] theorem State.maybeReencode_draws (f : HostFields) : (s.maybeReencode f).draws = s.draws + 1 := rfl

end Sys2Proof.Machine
end

