-- ==== Sys2Proof/Laws/Ops.lean ====
section
/-! SUPPORT. What each shared operation can do, said once: later proofs cite these lemmas and unfold nothing. -/

namespace Sys2Proof.Machine

/-- An instruction drives its response and does nothing else. -/
@[simp] theorem exec_eq_respond (i : Instr) (s : State) : exec i s = .next (s.respond (responseOf i)) := by
  cases i <;> rfl

@[simp] theorem complete_other (s : State) (n : Nat) (o : CallOutcome) : complete s (.other n) o = s.record (.other n) o := rfl

/-- Not a rewrite of simp: what a completed call leaves in each field is said by the lemmas below, for every caller. -/
theorem complete_ui (s : State) (o : CallOutcome) : complete s .ui o = (s.record .ui o).present o := rfl

@[simp] theorem present_response (s : State) (r : Response) : s.present (.response r) = s := rfl

@[simp] theorem present_fields (s : State) (f : HostFields) : s.present (.fields f) = (s.showFields f).maybeReencode f := rfl

@[simp] theorem present_text (s : State) (t : Text) : s.present (.text t) = s.showText t := rfl

@[simp] theorem present_error (s : State) (e : HostError) : s.present (.error e) = s.showMessage e := rfl

/-- Whatever a call ends with, its caller receives exactly that, once. -/
@[simp] theorem complete_outcomes (s : State) (c : Caller) (o : CallOutcome) :
    (complete s c o).outcomes = s.outcomes ++ [(c, o)] := by
  cases c <;> cases o <;> rfl

@[simp] theorem complete_ports (s : State) (c : Caller) (o : CallOutcome) : (complete s c o).ports = s.ports := by
  cases c <;> cases o <;> rfl

@[simp] theorem complete_response (s : State) (c : Caller) (o : CallOutcome) : (complete s c o).response = s.response := by
  cases c <;> cases o <;> rfl

@[simp] theorem complete_wideHexPolicy (s : State) (c : Caller) (o : CallOutcome) :
    (complete s c o).wideHexPolicy = s.wideHexPolicy := by
  cases c <;> cases o <;> rfl

/-- Ending a call leaves the queue as it is, but for the re-encode that a free value may put before it after a decode_text of
the user interface that succeeded. -/
theorem complete_queue (s : State) (c : Caller) (o : CallOutcome) :
    (complete s c o).queue = s.queue ∨
      ∃ f, c = .ui ∧ o = .fields f ∧ (complete s c o).queue = .callEncode .ui f :: s.queue := by
  cases c with
  | other n => exact .inl rfl
  | ui =>
    cases o with
    | response r => exact .inl rfl
    | text t => exact .inl rfl
    | error e => exact .inl rfl
    | fields f =>
      rw [complete_ui, present_fields, State.maybeReencode_queue]
      split
      · exact .inr ⟨f, rfl, rfl, rfl⟩
      · exact .inl rfl

/-- The messages shown grow by exactly the errors that the user interface receives. -/
theorem complete_messages (s : State) (c : Caller) (o : CallOutcome) :
    (complete s c o).host.messages = s.host.messages ∨
      ∃ e, c = .ui ∧ o = .error e ∧ (complete s c o).host.messages = s.host.messages ++ [e] := by
  cases c with
  | other n => exact .inl rfl
  | ui =>
    cases o with
    | error e => exact .inr ⟨e, rfl, rfl, rfl⟩
    | response r => exact .inl rfl
    | fields f => exact .inl rfl
    | text t => exact .inl rfl

/-- A delivery frees the ports and ends the call with the response just given. -/
theorem deliver_respond (q : Issued) (s : State) (r : Response) :
    deliver q (s.respond r) = complete (s.respond r).releasePorts q.caller (outcomeOf q.form r) := rfl

@[simp] theorem outcomeOf_block (r : Response) : outcomeOf .block r = .response r := rfl

@[simp] theorem outcomeOf_text_fields (f : Fields) : outcomeOf .text (.fields f) = .fields (hostFieldsOf f) := rfl

@[simp] theorem outcomeOf_text_word (w : RegWord) : outcomeOf .text (.word w) = .text (formatHex w) := rfl

/-- A call either puts its request on the ports, or ends with the error its conversion raised and no request is made. -/
theorem startCall_cases (s : State) (c : Caller) (i : Except HostError Instr) :
    (∃ j, i = .ok j ∧ startCall s c i = s.issue c .text j) ∨
      ∃ e, i = .error e ∧ startCall s c i = complete s c (.error e) := by
  cases i with
  | ok j => exact .inl ⟨j, rfl, rfl⟩
  | error e => exact .inr ⟨e, rfl, rfl⟩

/-- A task leaves everything but what the host shows as it is, and then a request stands on the ports or a call has ended
with an error. -/
theorem runTask_cases (s : State) (t : Task) :
    ∃ u : State, (u = s ∨ (∃ x, u = s.showText x) ∨ ∃ f, u = s.showFields f) ∧
      ((∃ c form j, runTask s t = u.issue c form j) ∨ ∃ c e, runTask s t = complete u c (.error e)) := by
  have call : ∀ (u : State) (c : Caller) (i : Except HostError Instr),
      (∃ c' form j, startCall u c i = u.issue c' form j) ∨ ∃ c' e, startCall u c i = complete u c' (.error e) := by
    intro u c i
    rcases startCall_cases u c i with ⟨j, -, h⟩ | ⟨e, -, h⟩
    · exact .inl ⟨c, .text, j, h⟩
    · exact .inr ⟨c, e, h⟩
  cases t with
  | request c i => exact ⟨s, .inl rfl, .inl ⟨c, .block, i, rfl⟩⟩
  | callDecode c x => exact ⟨s, .inl rfl, call s c (decodeTextRequest s.wideHexPolicy x)⟩
  | callEncode c f => exact ⟨s, .inl rfl, call s c (encodeTextRequest f)⟩
  | textChanged x =>
    exact ⟨s.showText x, .inr (.inl ⟨x, rfl⟩), call (s.showText x) .ui (decodeTextRequest s.wideHexPolicy x)⟩
  | fieldChanged F x =>
    exact ⟨s.showFields (setHostField s.host.fields F x), .inr (.inr ⟨setHostField s.host.fields F x, rfl⟩),
      call (s.showFields (setHostField s.host.fields F x)) .ui (encodeTextRequest (setHostField s.host.fields F x))⟩

/-- The host takes its oldest task, or does nothing where it has none. -/
theorem hostStep_cases (s : State) :
    (s.queue = [] ∧ hostStep s = s) ∨
      ∃ t rest, s.queue = t :: rest ∧ hostStep s = runTask (s.setQueue rest) t := by
  unfold hostStep
  split
  · next h => exact .inl ⟨h, rfl⟩
  · next t rest h => exact .inr ⟨t, rest, h, rfl⟩

/-- All that a step can do: the host's step where the ports are free, the block's response and its delivery otherwise. -/
theorem step_cases {s t : State} (h : step s = .next t) :
    (s.ports = none ∧ t = hostStep s) ∨
      ∃ q, s.ports = some q ∧ t = deliver q (s.respond (responseOf (decodeRequest q.request))) := by
  unfold step at h
  split at h
  · next hp => cases h; exact .inl ⟨hp, rfl⟩
  · next q hp => simp only [exec_eq_respond] at h; cases h; exact .inr ⟨q, hp, rfl⟩

end Sys2Proof.Machine
end

