-- ==== Sys2Proof/Laws/Run.lean ====
section
/-! SUPPORT. How runs are put together from steps. -/

namespace Sys2Proof.Machine

/-- With no request on the ports a step is the host's. -/
theorem step_of_ports_none {s : State} (h : s.ports = none) : step s = .next (hostStep s) := by
  unfold step
  rw [h]

/-- With no request on the ports and a task to do, a step takes up that task. -/
theorem step_of_task {s : State} {t : Task} {rest : List Task} (h : s.ports = none) (hq : s.queue = t :: rest) :
    step s = .next (runTask (s.setQueue rest) t) := by
  rw [step_of_ports_none h]
  unfold hostStep
  rw [hq]

/-- What the host shows once a call has ended is what its outcome makes of what it showed. -/
theorem complete_host (s : State) (c : Caller) (o : CallOutcome) :
    (complete s c o).host = viewAfter s.host [(c, o)] := by
  cases c <;> cases o <;> rfl

/-- What the host shows after two lists of outcomes, one after the other. -/
theorem viewAfter_append (view : HostView) (a b : List (Caller × CallOutcome)) :
    viewAfter view (a ++ b) = viewAfter (viewAfter view a) b := by
  induction a generalizing view with
  | nil => rfl
  | cons x rest ih =>
    obtain ⟨c, o⟩ := x
    cases c <;> cases o <;> simp only [List.cons_append, viewAfter, ih]

theorem runsTo_zero (s : State) : runsTo 0 s s := rfl

/-- A run is its first step and the rest. -/
theorem runsTo_succ {n : Nat} {s t u : State} (h : step s = .next t) : runsTo (n + 1) s u ↔ runsTo n t u := by
  have h' : Host.Core.step Sys2Proof.core s = .next t := h
  unfold runsTo
  simp only [Host.Core.run]
  rw [h']

end Sys2Proof.Machine
end

