-- ==== Sys2Proof/Tests/Slice0.lean ====
section
/-! SUPPORT. Small tests of the model against the vectors of 95_test_vectors.md, and for each statement with hypotheses a
state and operands that meet them together. -/

namespace Sys2Proof.Tests

open Sys2Proof Sys2Proof.Machine

/-- A state with nothing but the given tasks to do, and shown text and fields that are written out. -/
def asked (policy : WideHexPolicy) (queue : List Task) : State where
  ports := none
  response := none
  host := { text := "0x10A0B033".toList, fields := ⟨.number 1, .number 4, .number 2, .number 15, .number 19⟩, messages := [] }
  wideHexPolicy := policy
  queue := queue
  outcomes := []
  draws := 0

/-- A request with every port written out. -/
def requestOf (op : BitVec 1) : Request := ⟨op, 0x10A0B033#32, 31, 19, 37, 261, 0xFFFFFFFF#32⟩

/-- The outcomes after `n` steps. -/
def outcomesAfter (n : Nat) (s : State) : List (Caller × CallOutcome) :=
  match Host.Core.run Sys2Proof.core n s with
  | .next t => State.outcomes t
  | .fault _ => []
  | .refused _ => []

/-! ## Well-formedness: the ill-formed term of each check -/

theorem test_wellFormed_decode_refuses_wide : (Line.decode (2 ^ 32)).wellFormed = false := by decide

theorem test_wellFormed_decode_takes_widest : (Line.decode (2 ^ 32 - 1)).wellFormed = true := by decide

theorem test_wellFormed_encode_refuses_each_wide :
    (Line.encode (2 ^ 32) 0 0 0 0).wellFormed = false ∧ (Line.encode 0 (2 ^ 32) 0 0 0).wellFormed = false ∧
    (Line.encode 0 0 (2 ^ 32) 0 0).wellFormed = false ∧ (Line.encode 0 0 0 (2 ^ 32) 0).wellFormed = false ∧
    (Line.encode 0 0 0 0 (2 ^ 32)).wellFormed = false := by decide

/-! ## Decoding: words written out bit by bit from 30_encoding.md R32, R33 -/

/-- op = 0 in bit 0, `reg_in` = 0x12345678 in bits 32:1. -/
theorem test_decodes_written_decode : decodeBytes
    [0xF0, 0xAC, 0x68, 0x24, 0, 0, 0, 0, 0, 0, 0, 0, 0, 0, 0, 0, 0, 0, 0, 0, 0, 0, 0, 0, 0]
      = .ok (.decode 0x12345678#32) := by decide

/-- op = 1 in bit 0, 9 at bit 33, 10 at bit 65, 11 at bit 97, 205 at bit 129, 239 at bit 161. -/
theorem test_decodes_written_encode : decodeBytes
    [0x01, 0, 0, 0, 0x12, 0, 0, 0, 0x14, 0, 0, 0, 0x16, 0, 0, 0, 0x9A, 0x01, 0, 0, 0xDE, 0x01, 0, 0, 0]
      = .ok (.encode 9 10 11 205 239) := by decide

/-- The last bit of a request, bit 192, is bit 31 of `scll_in`; the bit above it is no bit of a request. -/
theorem test_decode_bounds :
    decodeBytes (bytesOfNat 25 (2 ^ 192 + 1)) = .ok (.encode 0 0 0 0 0x80000000#32) ∧
    decodeBytes (bytesOfNat 25 (2 ^ 193)) = .error .bitsAboveRequest ∧
    decodeBytes [0] = .error (.wrongLength 1) := by decide

theorem test_table_words : decodeTableWord 8 0 = some (.decode 0) ∧ decodeTableWord 8 1 = some (.encode 0 0 0 0 0) := by decide

/-! ## The two operations: vectors of 95_test_vectors.md L2 -/

theorem test_decode_distinct_nibbles :
    outcomesAfter 2 (asked .ignore [.request (.other 7) (.decode 0x12345678#32)])
      = [(.other 7, .response (.fields ⟨1, 3, 4, 86, 120⟩))] := by decide

/-- Program P3: every input out of range. -/
theorem test_encode_truncates :
    outcomesAfter 2 (asked .ignore [.request (.other 7) (.encode 31 19 37 261 0xFFFFFFFF#32)])
      = [(.other 7, .response (.word 0xF03505FF#32))] := by decide

theorem test_table_word_runs_first :
    outcomesAfter 1 (State.reset.withFetchWord 33 0x21416066) = [(.other 0, .response (.fields ⟨1, 10, 0, 176, 51⟩))] := by
  decide

/-! ## Host text: vectors of 95_test_vectors.md L2 -/

theorem test_parse_accepts :
    parseHex .reject "0x10A0B033".toList = .ok 0x10A0B033#32 ∧ parseHex .reject "10a0b033".toList = .ok 0x10A0B033#32 ∧
    parseHex .reject "0x00000000000010A0B033".toList = .ok 0x10A0B033#32 ∧
    parseHex .ignore "0x1234567890ABCDEF".toList = .ok 0x90ABCDEF#32 := by decide

theorem test_parse_refuses :
    ["", "0x", "zzzz", "0X10", " 0x1", "0x1 ", "-0x1", "0x1_0", "0x12zz", "0xg"].all
      (fun s => parseHex .ignore s.toList == .error (.parseError s.toList)) = true ∧
    parseHex .reject "0x100000000".toList = .error (.parseError "0x100000000".toList) := by decide

theorem test_format : formatHex 0xABC#32 = "0x00000ABC".toList ∧ formatHex 0xDEADBEEF#32 = "0xDEADBEEF".toList := by decide

theorem test_field_words :
    toFieldWord .presc (.number (-16)) = .ok 0xFFFFFFF0#32 ∧
    toFieldWord .presc (.number 4294967297) = .ok 1#32 ∧
    toFieldWord .sclh (.number (mkRat 35 10)) = .error (.invalidField .sclh (.number (mkRat 35 10))) ∧
    toFieldWord .presc (.text ['5']) = .error (.invalidField .presc (.text ['5'])) := by decide

/-- Program P6: the first failing field ends the call. -/
theorem test_encode_text_stops_at_first_invalid :
    encodeText ⟨.missing, .number 0, .number 0, .number (mkRat 35 10), .number 0⟩ = .error (.invalidField .presc .missing) := by
  decide

/-- Program P4, its second line: a text that does not parse keeps the shown fields. -/
theorem test_parse_error_keeps_fields :
    step (asked .ignore [.textChanged "0x00420G13".toList]) = .next { asked .ignore [] with
      host := { (asked .ignore []).host with text := "0x00420G13".toList, messages := [.parseError "0x00420G13".toList] }
      outcomes := [(.ui, .error (.parseError "0x00420G13".toList))] } := by rfl

/-! ## The program syntax of 30_encoding.md R39 -/

theorem test_parse_mnemonic_lines :
    parseLine "DECODE 0x10A0B033   ; op = 0".toList = .ok (some (.decode 0x10A0B033)) ∧
    parseLine "ENCODE 31, 19, 37, 261, 0xFFFFFFFF".toList = .ok (some (.encode 31 19 37 261 0xFFFFFFFF)) ∧
    parseLine "DECODE 0x100000000".toList = .error (.literalTooWide "0x100000000".toList) ∧
    parseLine "; nothing".toList = .ok none := by decide

theorem test_parse_record_line :
    parseLine ("encode(".toList ++ [Char.ofNat 123] ++ "scll: -1, presc: 31, sclh: \"x\", sdadel: 3.5".toList ++
      [Char.ofNat 125, ')']) = .ok (some (.encodeText ⟨.number 31, .missing, .number (mkRat 35 10), .text ['x'], .number (-1)⟩)) := by
  decide

theorem test_assemble_two_lines :
    assemble "decode(\"zzzz\")\n\nDECODE 7 ; seven".toList = .ok [.decodeText "zzzz".toList, .decode 7] := by decide

/-- Program P2: DECODE of a word with a reserved bit set, then ENCODE of its fields. -/
theorem test_loaded_program_runs :
    outcomesAfter 4 ((asked .ignore []).load (.other 2) [.decode 0x1FA0B033, .encode 1 10 0 176 51])
      = [(.other 2, .response (.fields ⟨1, 10, 0, 176, 51⟩)), (.other 2, .response (.word 0x10A0B033#32))] := by decide

/-! ## Witnesses: for each statement with hypotheses, a case that meets them all -/

theorem witness_SelectorPicksTheOperation : (requestOf 0).op = 0#1 ∧ (requestOf 1).op = 1#1 := by decide

theorem witness_EncodedInstructionDecodesBack :
    (Instr.decode 0xFFFFFFFF#32).wellFormed = true ∧ (Instr.encode 1 10 0 176 51).wellFormed = true := by decide

/-- The ports of a state with the given request on them. -/
def driven (op : BitVec 1) : State := { asked .ignore [] with ports := some ⟨requestOf op, .ui, .text⟩ }

theorem witness_StepRunsTheRequestOnThePorts :
    (driven 1).ports = some ⟨requestOf 1, .ui, .text⟩ ∧
    decodeRequest (requestOf 1) = .encode 31 19 37 261 0xFFFFFFFF#32 ∧
    (Instr.encode 31 19 37 261 0xFFFFFFFF#32).wellFormed = true := by decide

/-- The widest table word that the decoder takes is one of 200 bits with nothing above bit 192. -/
theorem witness_TableWordRunsAsDecoded :
    decodeTableWord 8 1 = some (.encode 0 0 0 0 0) ∧
    decodeTableWord 200 (2 ^ 192 + 1) = some (.encode 0 0 0 0 0x80000000#32) := by decide

theorem witness_DecodeGivesTheFiveFields : (requestOf 0).op = 0#1 ∧ (requestOf 0).regIn = 0x10A0B033#32 := by decide

theorem witness_EncodePacksTheFiveFields :
    (requestOf 1).op = 1#1 ∧ (requestOf 1).prescIn = 31 ∧ (requestOf 1).scldelIn = 19 ∧ (requestOf 1).sdadelIn = 37 ∧
    (requestOf 1).sclhIn = 261 ∧ (requestOf 1).scllIn = 0xFFFFFFFF#32 := by decide

/-- For each operation, two requests that agree on its inputs and differ on a port it does not use. -/
theorem witness_ResponseDependsOnlyOnTheSelectedInputs :
    (∃ r r' : Request, r ≠ r' ∧ r.op = 0#1 ∧ r.op = r'.op ∧ r.regIn = r'.regIn) ∧
    ∃ r r' : Request, r ≠ r' ∧ r.op = 1#1 ∧ r.op = r'.op ∧ r.prescIn = r'.prescIn ∧ r.scldelIn = r'.scldelIn ∧
      r.sdadelIn = r'.sdadelIn ∧ r.sclhIn = r'.sclhIn ∧ r.scllIn = r'.scllIn :=
  ⟨⟨requestOf 0, { requestOf 0 with prescIn := 0 }, by decide⟩, ⟨requestOf 1, { requestOf 1 with regIn := 0 }, by decide⟩⟩

theorem witness_ParseAcceptsExactlyTheGrammar : ¬ ∃ digits, hexGrammar [] digits := by
  rintro ⟨digits, h | h, hne, -⟩
  · exact hne h.symm
  · cases h

/-- The widest value that `reject` takes and the narrowest that it refuses. -/
theorem witness_ParsedWordIsThePositionalValue :
    hexGrammar "0xFFFFFFFF".toList "FFFFFFFF".toList ∧ positionalValue "FFFFFFFF".toList < 2 ^ 32 ∧
    hexGrammar "0x100000000".toList "100000000".toList ∧ 2 ^ 32 ≤ positionalValue "100000000".toList := by
  refine ⟨⟨by decide, by decide, by simp [isHexDigit]⟩, by decide, ⟨by decide, by decide, by simp [isHexDigit]⟩, by decide⟩

theorem missing_holds_no_integer : ¬ holdsInteger .missing := by
  rintro ⟨n, h⟩
  cases h

theorem witness_FieldConversionKeepsIntegersOnly : ¬ holdsInteger .missing ∧ 32 ≤ 32 ∧ 0 ≤ 32 :=
  ⟨missing_holds_no_integer, by decide, by decide⟩

/-- Fields of which the first that holds no integer is the last, and fields of which it is the first. -/
theorem witness_FirstInvalidFieldIsReported :
    (decodeText .ignore "zzzz".toList = .error (.parseError "zzzz".toList)) ∧
    ([.presc, .scldel, .sdadel, .sclh] ++ .scll :: [] = [FieldName.presc, .scldel, .sdadel, .sclh, .scll] ∧
      (∀ G ∈ [FieldName.presc, .scldel, .sdadel, .sclh],
        holdsInteger (getHostField ⟨.number 0, .number 0, .number 0, .number 0, .missing⟩ G)) ∧
      ¬ holdsInteger (getHostField ⟨.number 0, .number 0, .number 0, .number 0, .missing⟩ .scll)) ∧
    ([] ++ .presc :: [.scldel, .sdadel, .sclh, .scll] = [FieldName.presc, .scldel, .sdadel, .sclh, .scll] ∧
      ¬ holdsInteger (getHostField emptyRecord .presc)) ∧
    ∀ G : FieldName, holdsInteger (getHostField ⟨.number 0, .number 0, .number 0, .number 0, .number 0⟩ G) := by
  refine ⟨by decide, ⟨rfl, ?_, missing_holds_no_integer⟩, ⟨rfl, missing_holds_no_integer⟩, ?_⟩
  · intro G hG
    cases G <;> first | exact ⟨0, by decide⟩ | exact absurd hG (by decide)
  · intro G
    cases G <;> exact ⟨0, by decide⟩

theorem witness_QueuedRequestReachesThePorts :
    (asked .ignore [.request .ui (.decode 0)]).ports = none ∧
    (asked .ignore [.request .ui (.decode 0)]).queue = .request .ui (.decode 0) :: [] := by decide

/-- Four calls of two callers, the user interface one of them: one of each kind, one of them ending in an error, and a
decode_text of the user interface that succeeds. -/
def someCalls : List (Caller × Call) :=
  [(.other 0, .request (.decode 0x1FA0B033#32)), (.ui, .decodeText "zzzz".toList), (.other 0, .encodeText emptyRecord),
    (.ui, .decodeText "0x1FA0B033".toList)]

/-- Four calls, and then a change of the text. -/
theorem witness_EveryCallReceivesItsOwnResult :
    (asked .reject (someCalls.map (fun x => taskOfCall x.1 x.2) ++ [.textChanged []])).ports = none ∧
    (asked .reject (someCalls.map (fun x => taskOfCall x.1 x.2) ++ [.textChanged []])).queue =
      someCalls.map (fun x => taskOfCall x.1 x.2) ++ [.textChanged []] := by
  decide

theorem witness_InterleavingDoesNotMatter : someCalls.Perm someCalls.reverse ∧ someCalls ≠ someCalls.reverse ∧
    (asked .ignore (someCalls.map fun x => taskOfCall x.1 x.2)).ports = none :=
  ⟨(List.reverse_perm someCalls).symm, by decide, rfl⟩

/-- The re-encode that a decode_text may leave in the queue shows its text. -/
theorem test_reencode_shows_its_text :
    (match Host.Core.run Sys2Proof.core 2 (asked .ignore
        [.callEncode .ui ⟨.number 1, .number 10, .number 0, .number 176, .number 51⟩]) with
      | .next t => State.host t
      | .fault _ => (asked .ignore []).host
      | .refused _ => (asked .ignore []).host).text = "0x10A0B033".toList := by decide

theorem witness_TextThatFailsToParseKeepsTheFields :
    (asked .ignore [.textChanged "zzzz".toList]).ports = none ∧ ¬ ∃ w, parseHex .ignore "zzzz".toList = .ok w := by
  refine ⟨rfl, ?_⟩
  rintro ⟨w, h⟩
  cases h

theorem witness_TextThatParsesShowsItsFields :
    (asked .ignore [.textChanged "0x1FA0B033".toList]).ports = none ∧
    decodeText .ignore "0x1FA0B033".toList = .ok ⟨.number 1, .number 10, .number 0, .number 176, .number 51⟩ := by decide

theorem witness_FieldChangeShowsTheText :
    (asked .ignore [.fieldChanged .presc (.number 31)]).ports = none ∧
    encodeText (setHostField (asked .ignore []).host.fields .presc (.number 31)) = .ok "0xF0420F13".toList := by decide

/-- Program P6's field: a text where an integer should stand. -/
theorem witness_FieldChangeThatFailsKeepsTheText :
    (asked .ignore [.fieldChanged .sclh (.text ['x'])]).ports = none ∧
    encodeText (setHostField (asked .ignore []).host.fields .sclh (.text ['x'])) = .error (.invalidField .sclh (.text ['x'])) := by
  decide

theorem witness_IdleMachineWaits : (asked .ignore []).ports = none ∧ (asked .ignore []).queue = [] := by decide

/-- A step that gives a caller an error. -/
theorem witness_ErrorsNeverReachTheBlock :
    ∃ s t, step s = .next t ∧ s.queue = [.callEncode (.other 3) emptyRecord] ∧
      (Caller.other 3, CallOutcome.error (.invalidField .presc .missing)) ∈ t.outcomes.drop s.outcomes.length :=
  ⟨asked .ignore [.callEncode (.other 3) emptyRecord], _, rfl, rfl, by decide⟩

/-- A step from a state whose response and outcomes are legal, and not empty. -/
theorem witness_StepKeepsOutcomesLegal :
    outcomesLegal { driven 1 with response := some (.word 0xF0FFFFFF#32) } ∧
    ∃ t, step { driven 1 with response := some (.word 0xF0FFFFFF#32) } = .next t := by
  refine ⟨⟨?_, ?_⟩, _, rfl⟩
  · intro r h
    cases h
    show scrubbed 0xF0FFFFFF#32
    decide
  · intro c o h
    cases h

/-- A step from a state that shows a message for an error already received. -/
theorem witness_StepKeepsMessagesMatchingErrors :
    ∃ s t, messagesMatchErrors s ∧ s.host.messages ≠ [] ∧ step s = .next t :=
  ⟨{ asked .ignore [.textChanged []] with
      host := { (asked .ignore []).host with messages := [.parseError []] }
      outcomes := [(.ui, .error (.parseError []))] }, _, rfl, by decide, rfl⟩

theorem witness_StepKeepsPolicyAndHistory :
    ∃ t, step { driven 0 with response := some (.word 0) } = .next t ∧ (driven 0).ports.isSome = true := ⟨_, rfl, rfl⟩

/-- The widest literal that fits, the narrowest that does not, in both notations, and a text without a quote. -/
theorem witness_DecodeLinesAreReadAsWritten :
    spellsInteger "4294967295".toList (2 ^ 32 - 1) ∧ spellsInteger "0xffffFFFF".toList (2 ^ 32 - 1) ∧
    spellsInteger "4294967296".toList (2 ^ 32) ∧ spellsInteger "0x100000000".toList (2 ^ 32) ∧
    '"' ∉ "0x10A0B033".toList := by
  refine ⟨.inl ⟨⟨by decide, by simp⟩, by decide⟩, .inr ⟨"ffffFFFF".toList, rfl, by decide, by simp [isHexDigit], by decide⟩,
    .inl ⟨⟨by decide, by simp⟩, by decide⟩, .inr ⟨"100000000".toList, rfl, by decide, by simp [isHexDigit], by decide⟩, by decide⟩

theorem witness_EncodeLinesAreReadAsWritten :
    spellsInteger "0".toList 0 ∧ spellsInteger "0x0".toList 0 ∧ spellsInteger "4294967295".toList (2 ^ 32 - 1) ∧
      0 < 2 ^ 32 ∧ 2 ^ 32 - 1 < 2 ^ 32 :=
  ⟨.inl ⟨⟨by decide, by simp⟩, by decide⟩, .inr ⟨['0'], rfl, by decide, by simp [isHexDigit], by decide⟩,
    .inl ⟨⟨by decide, by simp⟩, by decide⟩, by decide, by decide⟩

/-- A record out of order, with an integer, a negative integer, a fraction and a quoted text, that omits a field. -/
theorem witness_RecordLinesAreReadAsWritten :
    ∃ items : List (FieldName × Text × HostValue), items.length = 4 ∧ (items.map fun x => x.1).Nodup ∧
      (∀ x ∈ items, spellsValue x.2.1 x.2.2) ∧ FieldName.scldel ∉ items.map fun x => x.1 := by
  refine ⟨[(.scll, "-1".toList, .number (-1)), (.presc, "31".toList, .number 31), (.sclh, "\"x\"".toList, .text ['x']),
    (.sdadel, "3.5".toList, .number (35 / 10))], rfl, by decide, ?_, by decide⟩
  simp only [List.mem_cons, List.not_mem_nil, or_false, forall_eq_or_imp, forall_eq]
  refine ⟨.inr (.inl ⟨['1'], 1, rfl, .inl ⟨1, .inl ⟨⟨by decide, by simp⟩, by decide⟩, by simp⟩, rfl⟩),
    .inl ⟨31, .inl ⟨31, .inl ⟨⟨by decide, by simp⟩, by decide⟩, by simp⟩, rfl⟩,
    .inr (.inr ⟨['x'], rfl, by decide, rfl⟩),
    .inl ⟨35 / 10, .inr ⟨['3'], ['5'], rfl, ⟨by decide, by simp⟩, ⟨by decide, by simp⟩, ?_⟩, rfl⟩⟩
  have digits : positionalIn 10 (['3'] ++ ['5']) = 35 := by decide
  rw [digits]
  norm_num

theorem witness_CommentsChangeNothing : parseLine "DECODE 7 ".toList = .ok (some (.decode 7)) := by decide

theorem witness_AcceptedLinesAreWellFormed :
    parseLine "DECODE 4294967295".toList = .ok (some (.decode 4294967295)) := by decide

end Sys2Proof.Tests
end

/-! PROOFS. 10_state.md: the response as a function of the selected inputs (R14), and the reserved bits of the register
word (R19). -/

namespace Sys2Proof.Machine

/-! ## What a request selects, and the step that performs it -/

theorem decodeRequest_of_op_zero {r : Request} (h : r.op = 0#1) : decodeRequest r = .decode r.regIn := by
  rw [decodeRequest, if_pos h]

theorem decodeRequest_of_op_one {r : Request} (h : r.op = 1#1) :
    decodeRequest r = .encode r.prescIn r.scldelIn r.sdadelIn r.sclhIn r.scllIn := by
  rw [decodeRequest, if_neg (by rw [h]; decide)]

/-- The decoder reads the selector and the selected operation's ports, and no others. -/
theorem decodeRequest_congr {r r' : Request} (hop : r.op = r'.op) (hdecode : r.op = 0#1 → r.regIn = r'.regIn)
    (hencode : r.op = 1#1 → r.prescIn = r'.prescIn ∧ r.scldelIn = r'.scldelIn ∧ r.sdadelIn = r'.sdadelIn ∧
      r.sclhIn = r'.sclhIn ∧ r.scllIn = r'.scllIn) :
    decodeRequest r = decodeRequest r' := by
  rcases BitVec.eq_zero_or_eq_one r.op with h0 | h1
  · rw [decodeRequest_of_op_zero h0, decodeRequest_of_op_zero (hop ▸ h0), hdecode h0]
  · obtain ⟨hp, hc, hd, hh, hl⟩ := hencode h1
    rw [decodeRequest_of_op_one h1, decodeRequest_of_op_one (hop ▸ h1), hp, hc, hd, hh, hl]

/-- With a request on the ports a step performs it and delivers its response. -/
theorem step_of_request {s : State} {q : Issued} (h : s.ports = some q) :
    step s = .next (deliver q (s.respond (responseOf (decodeRequest q.request)))) := by
  simp only [step, h, exec_eq_respond]

/-- A delivery leaves the response just given on the output ports. -/
@[simp] theorem deliver_respond_response (q : Issued) (s : State) (r : Response) :
    (deliver q (s.respond r)).response = some r := by
  rw [deliver_respond, complete_response, State.releasePorts_response, State.respond_response]

/-- Settles O12: both steps give the response of the instruction the request selects, and the two requests select the same
instruction. -/
theorem responseDependsOnlyOnTheSelectedInputs : Obligations.ResponseDependsOnlyOnTheSelectedInputs := by
  intro s s' q q' hs hs' hop hdecode hencode
  have sameInstr : decodeRequest q.request = decodeRequest q'.request := decodeRequest_congr hop hdecode hencode
  refine ⟨_, _, responseOf (decodeRequest q.request), step_of_request hs, step_of_request hs',
    deliver_respond_response .., ?_⟩
  rw [deliver_respond_response, sameInstr]

/-! ## The reserved bits -/

/-- A field's mask in place, shifted back, is its mask: no bit of it falls off the word. -/
theorem maskInPlace_ushiftRight (F : FieldName) : maskInPlace F >>> fieldOffset F = fieldMask F := by
  cases F <;> decide

/-- DECODE's shaping reads the word through the field's mask in place (10_state.md R18). -/
theorem extractField_eq_masked (F : FieldName) (w : RegWord) :
    extractField F w = (w &&& maskInPlace F) >>> fieldOffset F := by
  rw [BitVec.ushiftRight_and_distrib, maskInPlace_ushiftRight, extractField]

/-- Every field lies among the bits of the mask of all fields (10_state.md R20). -/
theorem allFieldsMask_and_maskInPlace (F : FieldName) : allFieldsMask &&& maskInPlace F = maskInPlace F := by
  cases F <;> decide

/-- No field is read from the reserved bits. -/
@[simp] theorem extractField_and_allFieldsMask (F : FieldName) (w : RegWord) :
    extractField F (w &&& allFieldsMask) = extractField F w := by
  rw [extractField_eq_masked, extractField_eq_masked, BitVec.and_assoc, allFieldsMask_and_maskInPlace]

@[simp] theorem decodeWord_and_allFieldsMask (w : RegWord) : decodeWord (w &&& allFieldsMask) = decodeWord w := by
  simp only [decodeWord, extractField_and_allFieldsMask]

/-- No field is placed on the reserved bits. -/
theorem placeField_reserved (F : FieldName) (v : RegWord) {i : Nat} (low : 24 ≤ i) (high : i < 28) :
    (placeField F v).getLsbD i = false := by
  have outside : ¬ (fieldOffset F ≤ i ∧ i < fieldOffset F + fieldWidth F) := by
    cases F <;> simp only [fieldOffset, fieldWidth] <;> omega
  rw [placeField_getLsbD, decide_eq_false outside, Bool.false_and]

theorem encodeWord_reserved (p c d h l : RegWord) : (encodeWord p c d h l).extractLsb' 24 4 = 0#4 := by
  refine BitVec.eq_of_getLsbD_eq fun i hi => ?_
  have unplaced (F : FieldName) (v : RegWord) : (placeField F v).getLsbD (24 + i) = false :=
    placeField_reserved F v (by omega) (by omega)
  simp [encodeWord_getLsbD, unplaced]

/-- Settles O14: DECODE reads the word through the mask of all fields, and ENCODE places no field on bits 27:24. -/
theorem reservedBitsAreIgnoredAndWrittenZero : Obligations.ReservedBitsAreIgnoredAndWrittenZero := by
  constructor
  · intro w s
    refine ⟨decodeWord w, exec_eq_respond (.decode w) s, ?_⟩
    have cleared : decodeWord (w &&& 0xF0FFFFFF#32) = decodeWord w := decodeWord_and_allFieldsMask w
    rw [exec_eq_respond, responseOf, cleared, State.respond]
  · intro p c d h l s
    exact ⟨encodeWord p c d h l, exec_eq_respond (.encode p c d h l) s, encodeWord_reserved p c d h l⟩

end Sys2Proof.Machine

/-! PROOFS. 20_memory.md: an operation changes nothing but its own response (R29). -/

namespace Sys2Proof.Machine

/-- The output ports hold one response: a later one replaces it and leaves no trace of it. -/
@[simp] theorem State.respond_respond (s : State) (r r' : Response) : (s.respond r).respond r' = s.respond r' := rfl

/-- What an instruction answers does not depend on the response already given, so performing it again answers the same state. -/
theorem exec_respond_responseOf (i : Instr) (s : State) :
    exec i (s.respond (responseOf i)) = .next (s.respond (responseOf i)) := by
  rw [exec_eq_respond, State.respond_respond]

/-- Settles O10: the next state is the old one with the instruction's response on the output ports. -/
theorem operationChangesOnlyItsResponse : Obligations.OperationChangesOnlyItsResponse := by
  intro i s
  exact ⟨s.respond (responseOf i), exec_eq_respond i s, exec_respond_responseOf i s, s.respond_ports _, s.respond_host _,
    s.respond_wideHexPolicy _, s.respond_queue _, s.respond_outcomes _, s.respond_draws _⟩

end Sys2Proof.Machine

/-! PROOFS. 40_codec.md: what DECODE reads (R40) and what ENCODE writes (R41), each field at its bit range. -/

namespace Sys2Proof.Machine

/-! ## DECODE -/

/-- A field shifted down, masked and cut to its own width is the word's bits at the field's range. -/
theorem setWidth_extractField (F : FieldName) (w : RegWord) :
    (extractField F w).setWidth (fieldWidth F) = w.extractLsb' (fieldOffset F) (fieldWidth F) := by
  refine BitVec.eq_of_toNat_eq ?_
  rw [BitVec.toNat_setWidth, extractField_toNat, Nat.mod_mod, BitVec.extractLsb'_toNat, Nat.shiftRight_eq_div_pow]

theorem decodeWord_eq_extractLsb' (w : RegWord) :
    decodeWord w =
      { presc := w.extractLsb' 28 4, scldel := w.extractLsb' 20 4, sdadel := w.extractLsb' 16 4,
        sclh := w.extractLsb' 8 8, scll := w.extractLsb' 0 8 } := by
  rw [decodeWord, Fields.mk.injEq]
  exact ⟨setWidth_extractField .presc w, setWidth_extractField .scldel w, setWidth_extractField .sdadel w,
    setWidth_extractField .sclh w, setWidth_extractField .scll w⟩

/-- Settles O8: the selector 0 selects DECODE of `reg_in`, and each output is the word's bits at its field's range. -/
theorem decodeGivesTheFiveFields : Obligations.DecodeGivesTheFiveFields := by
  intro w s
  constructor
  · rintro r hop rfl
    exact decodeRequest_of_op_zero hop
  · rw [exec_eq_respond, responseOf, decodeWord_eq_extractLsb', State.respond]

/-! ## ENCODE -/

/-- ENCODE in the source's own form: each input masked, then shifted, and the five ORed (40_codec.md R41). -/
theorem encodeWord_eq_masked_or (p c d h l : RegWord) :
    encodeWord p c d h l =
      ((p &&& 0xF#32) <<< 28) ||| ((c &&& 0xF#32) <<< 20) ||| ((d &&& 0xF#32) <<< 16) ||| ((h &&& 0xFF#32) <<< 8) |||
        (l &&& 0xFF#32) := by
  have unshifted : placeField .scll l = l &&& 0xFF#32 := BitVec.shiftLeft_zero _
  rw [encodeWord, unshifted]
  rfl

/-- Two words side by side, in a wider or narrower word: the upper one shifted over the lower one. -/
theorem setWidth_append_eq_or {m n : Nat} (k : Nat) (x : BitVec m) (y : BitVec n) :
    (x ++ y).setWidth k = (x.setWidth k <<< n) ||| y.setWidth k := by
  refine BitVec.eq_of_getLsbD_eq fun i hi => ?_
  simp only [BitVec.getLsbD_setWidth, BitVec.getLsbD_append, BitVec.getLsbD_or, BitVec.getLsbD_shiftLeft]
  by_cases lower : i < n
  · simp [lower]
  · have inWord : i - n < k := by omega
    simp [lower, hi, inWord, BitVec.getLsbD_of_ge y i (by omega)]

/-- Masking a value to a field's width keeps its low bits. -/
theorem and_fieldMask (F : FieldName) (v : RegWord) :
    v &&& fieldMask F = (v.extractLsb' 0 (fieldWidth F)).setWidth 32 := by
  refine BitVec.eq_of_getLsbD_eq fun i hi => ?_
  rw [BitVec.getLsbD_and, fieldMask_getLsbD, BitVec.getLsbD_setWidth, BitVec.getLsbD_extractLsb', Nat.zero_add,
    decide_eq_true hi, Bool.true_and, Bool.and_comm]

theorem placeField_eq_extractLsb' (F : FieldName) (v : RegWord) :
    placeField F v = (v.extractLsb' 0 (fieldWidth F)).setWidth 32 <<< fieldOffset F := by
  rw [placeField, and_fieldMask]

/-- The five inputs' low bits side by side, with bits 27:24 zero between the first and the second, are ENCODE's word. -/
theorem append_eq_encodeWord (p c d h l : RegWord) :
    (p.extractLsb' 0 4 ++ 0#4 ++ c.extractLsb' 0 4 ++ d.extractLsb' 0 4 ++ h.extractLsb' 0 8 ++ l.extractLsb' 0 8 : RegWord)
      = encodeWord p c d h l := by
  have placed : (p.extractLsb' 0 4 ++ 0#4 ++ c.extractLsb' 0 4 ++ d.extractLsb' 0 4 ++ h.extractLsb' 0 8 ++
      l.extractLsb' 0 8).setWidth 32 = encodeWord p c d h l := by
    simp only [setWidth_append_eq_or]
    simp [BitVec.shiftLeft_or_distrib, ← BitVec.shiftLeft_add, encodeWord, placeField_eq_extractLsb', fieldOffset, fieldWidth]
  exact (BitVec.setWidth_eq _).symm.trans placed

/-- Settles O9: the selector 1 selects ENCODE of the five inputs, and its word is both their low bits side by side and the
masked and shifted inputs ORed. -/
theorem encodePacksTheFiveFields : Obligations.EncodePacksTheFiveFields := by
  intro p c d h l s
  refine ⟨?_, ?_, ?_⟩
  · rintro r hop rfl rfl rfl rfl rfl
    exact decodeRequest_of_op_one hop
  · rw [append_eq_encodeWord, encodeWord_eq_masked_or]
  · rw [exec_eq_respond, responseOf, append_eq_encodeWord, State.respond]

end Sys2Proof.Machine

/-! PROOFS. 41_host_text.md: the text FORMAT_HEX gives, character by character (R51). -/

namespace Sys2Proof.Machine

/-- A nibble's digit is the character at its value among the sixteen uppercase digits (41_host_text.md R51). -/
theorem uppercaseDigits_getElem?_toNat (d : Nibble) : "0123456789ABCDEF".toList[d.toNat]? = some (hexDigitChar d) := by
  revert d
  decide

/-- The nibble at bits `4n + 3 : 4n`, as the word's digit of weight `16 ^ n`. -/
theorem toNat_extractLsb'_nibble (r : RegWord) (n : Nat) : (r.extractLsb' (4 * n) 4).toNat = r.toNat / 16 ^ n % 16 := by
  rw [BitVec.extractLsb'_toNat, Nat.shiftRight_eq_div_pow, Nat.pow_mul]

/-- The digits stand most significant first: the one at place `k` is that of nibble `count - 1 - k`. -/
theorem hexDigits_getElem? {count k : Nat} (r : RegWord) (hk : k < count) :
    (hexDigits count r)[k]? = some (hexDigitChar (r.extractLsb' (4 * (count - 1 - k)) 4)) := by
  induction count generalizing k with
  | zero => omega
  | succ count ih =>
    cases k with
    | zero => rfl
    | succ k =>
      have sameNibble : count + 1 - 1 - (k + 1) = count - 1 - k := by omega
      rw [hexDigits, List.getElem?_cons_succ, ih (by omega), sameNibble]

@[simp] theorem formatHex_length (r : RegWord) : (formatHex r).length = 10 := by
  simp only [formatHex, List.length_cons, hexDigits_length]

/-- After the two characters `0x` come the digits. -/
theorem formatHex_getElem?_two_add (r : RegWord) (k : Nat) : (formatHex r)[2 + k]? = (hexDigits 8 r)[k]? := by
  rw [Nat.add_comm, formatHex, List.getElem?_cons_succ, List.getElem?_cons_succ]

/-- Settles O23: the digit at place `k` is that of nibble `7 - k`, which is the word's digit of weight `16 ^ (7 - k)`. -/
theorem formattedTextSpellsTheNibbles : Obligations.FormattedTextSpellsTheNibbles := by
  intro r
  refine ⟨formatHex_length r, rfl, fun k hk => ?_⟩
  calc (formatHex r)[2 + k]?
    _ = (hexDigits 8 r)[k]? := formatHex_getElem?_two_add r k
    _ = some (hexDigitChar (r.extractLsb' (4 * (7 - k)) 4)) := hexDigits_getElem? r hk
    _ = "0123456789ABCDEF".toList[r.toNat / 16 ^ (7 - k) % 16]? := by
      rw [← uppercaseDigits_getElem?_toNat, toNat_extractLsb'_nibble]

end Sys2Proof.Machine

/-! PROOFS. 30_encoding.md: requests as bits and bytes (R32), the operation they select (R33, R38), and a table word put on
the ports. -/

namespace Sys2Proof

/-! ## The layout of a request -/

/-- The request read from the bits of a request is that request: each port is read where it was written. -/
@[simp] theorem Request.ofBits_toBits (r : Request) : Request.ofBits r.toBits = r := by
  rw [Request.ofBits, Request.mk.injEq]
  refine ⟨?_, ?_, ?_, ?_, ?_, ?_, ?_⟩ <;>
  · refine BitVec.eq_of_getLsbD_eq fun i hi => ?_
    rw [BitVec.getLsbD_extractLsb', decide_eq_true hi, Bool.true_and, Request.toBits_getLsbD]
    simp (disch := omega) only [if_pos, if_neg, Nat.zero_add, Nat.add_sub_cancel_left]

/-- A request's 193 bits take 25 bytes. -/
theorem requestBytes_eq : requestBytes = 25 := rfl

/-- The decoder on the low 200 bits of a number: it reads the number's low 193 bits, or refuses the seven above them. -/
theorem decodeBytes_bytesOfNat (n : Nat) :
    decodeBytes (bytesOfNat 25 n) =
      if n % 2 ^ 200 < 2 ^ 193 then .ok (decodeRequest (Request.ofBits (BitVec.ofNat 193 n)))
      else .error .bitsAboveRequest := by
  have lowBits : BitVec.ofNat 193 (n % 2 ^ 200) = BitVec.ofNat 193 n := by
    rw [← BitVec.toNat_inj, BitVec.toNat_ofNat, BitVec.toNat_ofNat, Nat.mod_mod_of_dvd _ (pow_dvd_pow 2 (by omega))]
  have value : natOfBytes (bytesOfNat 25 n) = n % 2 ^ 200 := natOfBytes_bytesOfNat 25 n
  rw [decodeBytes, requestBytes_eq, if_pos (bytesOfNat_length 25 n), value, lowBits]
  rfl

/-- Settles O4: the bytes hold all 193 bits, and the request read from the bits of a request is that request. -/
theorem everyRequestsBytesDecode : Obligations.EveryRequestsBytesDecode := by
  intro r
  have fits : r.toBits.toNat % 2 ^ 200 < 2 ^ 193 := lt_of_le_of_lt (Nat.mod_le _ _) r.toBits.isLt
  rw [decodeBytes_bytesOfNat, if_pos fits, BitVec.ofNat_toNat, BitVec.setWidth_eq, Request.ofBits_toBits]

/-- Settles O5: an instruction's bytes are those of its request, which decode to what the request selects. -/
theorem encodedInstructionDecodesBack : Obligations.EncodedInstructionDecodesBack := by
  intro i _
  calc decodeBytes (encodeBytes i)
    _ = .ok (decodeRequest (encodeRequest Request.zero i)) := everyRequestsBytesDecode (encodeRequest Request.zero i)
    _ = .ok i := by rw [decodeRequest_encodeRequest]

/-- Settles O2: the selector is one bit wide, and each of its two values has its own row. -/
theorem selectorPicksTheOperation : Obligations.SelectorPicksTheOperation := fun r =>
  ⟨BitVec.eq_zero_or_eq_one r.op, Machine.decodeRequest_of_op_zero, Machine.decodeRequest_of_op_one⟩

/-- Settles O3 by evaluation: three closed strings of bytes. -/
theorem writtenRequestsDecode : Obligations.WrittenRequestsDecode := by
  refine ⟨?_, ?_, ?_⟩ <;> decide

end Sys2Proof

namespace Sys2Proof.Machine

/-! ## The step that performs a request -/

/-- Settles O6: the step drives the response of the instruction the request selects, and delivers it. -/
theorem stepRunsTheRequestOnThePorts : Obligations.StepRunsTheRequestOnThePorts := by
  rintro s q i hports rfl -
  exact ⟨responseOf (decodeRequest q.request), exec_eq_respond _ s, step_of_request hports⟩

/-- A table word that the decoder takes is the instruction its request selects. -/
theorem decodeRequest_ofTableWord {nbits w : Nat} {i : Instr} (h : decodeTableWord nbits w = some i) :
    decodeRequest (Request.ofTableWord nbits w) = i := by
  unfold decodeTableWord at h
  by_cases length : max requestBytes ((nbits + 7) / 8) = requestBytes
  · rw [length, requestBytes_eq, decodeBytes_bytesOfNat] at h
    split_ifs at h
    · exact Option.some.inj h
    · cases h
  · rw [decodeBytes, bytesOfNat_length, if_neg length] at h
    cases h

/-- Settles O7: the request on the ports selects the decoded instruction, and its response goes to caller 0 as it is. -/
theorem tableWordRunsAsDecoded : Obligations.TableWordRunsAsDecoded := by
  intro s nbits w i h
  refine ⟨responseOf i, exec_eq_respond i _, ?_⟩
  have performed := step_of_request (s := s.withFetchWord nbits w) rfl
  rw [decodeRequest_ofTableWord h] at performed
  exact performed

end Sys2Proof.Machine

/-! PROOFS. 40_codec.md: the laws of DECODE and ENCODE together (R40 to R45), and the words that ENCODE can produce
(10_state.md R18 to R20). -/

namespace Sys2Proof.Machine

/-! ## The masks -/

/-- A word keeps its bits outside 27:24 under the mask of all fields, so it is kept whole where those bits are zero. -/
theorem and_allFieldsMask_eq_self_iff (w : RegWord) : w &&& allFieldsMask = w ↔ w &&& reservedMask = 0#32 := by
  have disjoint : allFieldsMask &&& reservedMask = 0#32 := by decide
  have cover : allFieldsMask ||| reservedMask = BitVec.allOnes 32 := by decide
  constructor
  · intro kept
    rw [← kept, BitVec.and_assoc, disjoint, BitVec.and_zero]
  · intro clear
    calc w &&& allFieldsMask
      _ = (w &&& allFieldsMask) ||| (w &&& reservedMask) := by rw [clear, BitVec.or_zero]
      _ = w := by rw [← BitVec.and_or_distrib_left, cover, BitVec.and_allOnes]

theorem reservedMask_getLsbD (i : Nat) : reservedMask.getLsbD i = decide (24 ≤ i ∧ i < 28) := by
  by_cases inWord : i < 32
  · revert i
    decide
  · rw [BitVec.getLsbD_of_ge _ _ (by omega), decide_eq_false (by omega)]

/-- Bits 27:24 are zero, said with their mask or with their range. -/
theorem and_reservedMask_eq_zero_iff (w : RegWord) : w &&& reservedMask = 0#32 ↔ w.extractLsb' 24 4 = 0#4 := by
  constructor
  · intro clear
    refine BitVec.eq_of_getLsbD_eq fun i hi => ?_
    have bit := congrArg (BitVec.getLsbD · (24 + i)) clear
    have inRange : 24 ≤ 24 + i ∧ 24 + i < 28 := by omega
    simpa [BitVec.getLsbD_extractLsb', reservedMask_getLsbD, hi, inRange] using bit
  · intro zero
    refine BitVec.eq_of_getLsbD_eq fun i _ => ?_
    rw [BitVec.getLsbD_and, reservedMask_getLsbD, BitVec.getLsbD_zero]
    by_cases inRange : 24 ≤ i ∧ i < 28
    · have bit := congrArg (BitVec.getLsbD · (i - 24)) zero
      have place : 24 + (i - 24) = i := by omega
      have inField : i - 24 < 4 := by omega
      simpa [BitVec.getLsbD_extractLsb', place, inField, inRange] using bit
    · rw [decide_eq_false inRange, Bool.and_false]

/-! ## Each field on its own -/

theorem maskInPlace_getLsbD (F : FieldName) (i : Nat) :
    (maskInPlace F).getLsbD i = decide (fieldOffset F ≤ i ∧ i < fieldOffset F + fieldWidth F) := by
  have placed : maskInPlace F = placeField F (BitVec.allOnes 32) := by
    rw [placeField, BitVec.allOnes_and, maskInPlace]
  have fits := field_fits F
  rw [placed, placeField_getLsbD, BitVec.getLsbD_allOnes]
  by_cases inRange : fieldOffset F ≤ i ∧ i < fieldOffset F + fieldWidth F
  · have inWord : i - fieldOffset F < 32 := by omega
    simp [inRange, inWord]
  · rw [decide_eq_false inRange, Bool.false_and]

/-- No bit of the word belongs to two fields. -/
theorem fields_apart {F G : FieldName} (hne : F ≠ G) (i : Nat) :
    ¬ ((fieldOffset F ≤ i ∧ i < fieldOffset F + fieldWidth F) ∧ fieldOffset G ≤ i ∧ i < fieldOffset G + fieldWidth G) := by
  revert hne
  cases F <;> cases G <;> simp [fieldOffset, fieldWidth] <;> omega

/-- Settles O13: the masks of two fields share no bit since their ranges do not meet; the rest are facts about closed words. -/
theorem fieldsTileTheWord : Obligations.FieldsTileTheWord := by
  have disjoint : ∀ F G : FieldName, F ≠ G → maskInPlace F &&& maskInPlace G = 0#32 := by
    intro F G hne
    refine BitVec.eq_of_getLsbD_eq fun i _ => ?_
    rw [BitVec.getLsbD_and, maskInPlace_getLsbD, maskInPlace_getLsbD, ← Bool.decide_and, decide_eq_false (fields_apart hne i),
      BitVec.getLsbD_zero]
  exact ⟨by decide, disjoint, by decide⟩

/-- ENCODE's shaping undoes DECODE's: a field read and placed again is the word's own bits under the field's mask. -/
theorem placeField_extractField (F : FieldName) (w : RegWord) : placeField F (extractField F w) = w &&& maskInPlace F := by
  refine BitVec.eq_of_getLsbD_eq fun i hi => ?_
  rw [placeField_getLsbD, BitVec.getLsbD_and, maskInPlace_getLsbD, extractField, BitVec.getLsbD_and, fieldMask_getLsbD,
    BitVec.getLsbD_ushiftRight, Bool.and_comm]
  by_cases inRange : fieldOffset F ≤ i ∧ i < fieldOffset F + fieldWidth F
  · have inField : i - fieldOffset F < fieldWidth F := by omega
    have place : fieldOffset F + (i - fieldOffset F) = i := by omega
    simp [inField, place]
  · rw [decide_eq_false inRange, Bool.and_false, Bool.and_false]

/-- DECODE's shaping undoes ENCODE's, up to the field's width. -/
theorem extractField_placeField_self (F : FieldName) (v : RegWord) : extractField F (placeField F v) = v &&& fieldMask F := by
  refine BitVec.eq_of_getLsbD_eq fun i _ => ?_
  rw [extractField, BitVec.getLsbD_and, BitVec.getLsbD_and, BitVec.getLsbD_ushiftRight, fieldMask_getLsbD, placeField_getLsbD,
    Nat.add_sub_cancel_left]
  by_cases inField : i < fieldWidth F
  · simp [inField]
  · simp [inField]

/-- A field is not read from where another is placed: no two ranges meet. -/
theorem extractField_placeField_of_ne {F G : FieldName} (hne : F ≠ G) (v : RegWord) :
    extractField F (placeField G v) = 0#32 := by
  refine BitVec.eq_of_getLsbD_eq fun i _ => ?_
  rw [extractField, BitVec.getLsbD_and, BitVec.getLsbD_ushiftRight, fieldMask_getLsbD, placeField_getLsbD, BitVec.getLsbD_zero]
  by_cases inField : i < fieldWidth F
  · have apart := fields_apart hne (fieldOffset F + i)
    rw [decide_eq_false fun placed => apart ⟨by omega, placed⟩, Bool.false_and, Bool.false_and]
  · rw [decide_eq_false inField, Bool.and_false]

theorem extractField_or (F : FieldName) (v w : RegWord) : extractField F (v ||| w) = extractField F v ||| extractField F w := by
  simp only [extractField, BitVec.ushiftRight_or_distrib, BitVec.and_or_distrib_right]

/-- A field's output, widened again, is the field as it was read: cutting it to its width loses nothing. -/
theorem setWidth_setWidth_extractField (F : FieldName) (w : RegWord) :
    ((extractField F w).setWidth (fieldWidth F)).setWidth 32 = extractField F w := by
  refine BitVec.eq_of_toNat_eq ?_
  have small : (extractField F w).toNat % 2 ^ fieldWidth F = (extractField F w).toNat := by
    rw [extractField_toNat, Nat.mod_mod]
  rw [BitVec.toNat_setWidth, BitVec.toNat_setWidth, small, Nat.mod_eq_of_lt (extractField F w).isLt]

/-- A field's output and the word's bits at the field's range determine each other. -/
theorem setWidth_extractField_inj (F : FieldName) (w w' : RegWord) :
    (extractField F w).setWidth (fieldWidth F) = (extractField F w').setWidth (fieldWidth F) ↔
      w &&& maskInPlace F = w' &&& maskInPlace F := by
  constructor
  · intro same
    rw [← placeField_extractField, ← placeField_extractField, ← setWidth_setWidth_extractField, same,
      setWidth_setWidth_extractField]
  · intro same
    rw [extractField_eq_masked, extractField_eq_masked, same]

/-- Settles O15: an output is its field's range of the word, and determines that range. -/
theorem outputsDependOnTheirOwnRanges : Obligations.OutputsDependOnTheirOwnRanges := by
  intro w w' s
  exact ⟨decodeWord w, decodeWord w', exec_eq_respond (.decode w) s, exec_eq_respond (.decode w') s,
    setWidth_extractField_inj .presc w w', setWidth_extractField_inj .scldel w w', setWidth_extractField_inj .sdadel w w',
    setWidth_extractField_inj .sclh w w', setWidth_extractField_inj .scll w w'⟩

/-! ## ENCODE after DECODE -/

/-- The word of the five fields read from a word is that word without its reserved bits. -/
theorem encodeWord_extractField (w : RegWord) :
    encodeWord (extractField .presc w) (extractField .scldel w) (extractField .sdadel w) (extractField .sclh w)
      (extractField .scll w) = w &&& allFieldsMask := by
  have cover : maskInPlace .presc ||| maskInPlace .scldel ||| maskInPlace .sdadel ||| maskInPlace .sclh ||| maskInPlace .scll =
    allFieldsMask := by decide
  rw [← cover, encodeWord]
  simp only [placeField_extractField, BitVec.and_or_distrib_left]

/-- Settles O16: a word with bits 27:24 zero is the word of its own five fields. -/
theorem encodeProducesExactlyTheScrubbedWords : Obligations.EncodeProducesExactlyTheScrubbedWords := by
  intro w s
  constructor
  · rintro ⟨p, c, d, h, l, hw⟩
    rw [exec_eq_respond] at hw
    have produced : encodeWord p c d h l = w := by
      have same := congrArg State.response (Host.Outcome.next.inj hw)
      exact Response.word.inj (Option.some.inj same)
    rw [← produced]
    exact (and_reservedMask_eq_zero_iff _).2 (encodeWord_reserved p c d h l)
  · intro clear
    have produced := (encodeWord_extractField w).trans ((and_allFieldsMask_eq_self_iff w).2 clear)
    refine ⟨extractField .presc w, extractField .scldel w, extractField .sdadel w, extractField .sclh w,
      extractField .scll w, ?_⟩
    rw [exec_eq_respond, responseOf, produced, State.respond]

/-! ## DECODE after ENCODE -/

/-- Each field of an encoded word is its own input's low bits. -/
theorem extractField_encodeWord (p c d h l : RegWord) :
    extractField .presc (encodeWord p c d h l) = p &&& fieldMask .presc ∧
    extractField .scldel (encodeWord p c d h l) = c &&& fieldMask .scldel ∧
    extractField .sdadel (encodeWord p c d h l) = d &&& fieldMask .sdadel ∧
    extractField .sclh (encodeWord p c d h l) = h &&& fieldMask .sclh ∧
    extractField .scll (encodeWord p c d h l) = l &&& fieldMask .scll := by
  simp [encodeWord, extractField_or, extractField_placeField_self, extractField_placeField_of_ne]

/-- Masking a value to a field's width loses nothing that the field's output shows. -/
theorem setWidth_and_fieldMask (F : FieldName) (v : RegWord) :
    (v &&& fieldMask F).setWidth (fieldWidth F) = v.setWidth (fieldWidth F) := by
  refine BitVec.eq_of_getLsbD_eq fun i hi => ?_
  simp [fieldMask_getLsbD, hi]

/-- DECODE of an ENCODE gives each input cut to its field's width (40_codec.md R43, R44). -/
theorem decodeWord_encodeWord (p c d h l : RegWord) :
    decodeWord (encodeWord p c d h l) = ⟨p.setWidth 4, c.setWidth 4, d.setWidth 4, h.setWidth 8, l.setWidth 8⟩ := by
  obtain ⟨hp, hc, hd, hh, hl⟩ := extractField_encodeWord p c d h l
  rw [decodeWord, hp, hc, hd, hh, hl, Fields.mk.injEq]
  exact ⟨setWidth_and_fieldMask .presc p, setWidth_and_fieldMask .scldel c, setWidth_and_fieldMask .sdadel d,
    setWidth_and_fieldMask .sclh h, setWidth_and_fieldMask .scll l⟩

/-- Settles O17: by the laws of DECODE after ENCODE, and DECODE's outputs as quotients and remainders. -/
theorem fieldwiseLaws : Obligations.FieldwiseLaws := by
  constructor
  · intro p c d h l s
    refine ⟨_, _, exec_eq_respond (.encode p c d h l) s, exec_eq_respond (.decode (encodeWord p c d h l)) s, ?_⟩
    have reserved := congrArg BitVec.toNat (encodeWord_reserved p c d h l)
    rw [BitVec.extractLsb'_toNat, Nat.shiftRight_eq_div_pow] at reserved
    rw [decodeWord_encodeWord]
    exact ⟨BitVec.toNat_setWidth .., BitVec.toNat_setWidth .., BitVec.toNat_setWidth .., BitVec.toNat_setWidth ..,
      BitVec.toNat_setWidth .., reserved⟩
  · intro w s
    refine ⟨_, exec_eq_respond (.decode w) s, ?_⟩
    rw [decodeWord_eq_extractLsb']
    simp [BitVec.extractLsb'_toNat, Nat.shiftRight_eq_div_pow]

/-- Settles O18: what comes back is each input cut to its field's width, and fields within their widths are not cut. -/
theorem fieldsRoundTrip : Obligations.FieldsRoundTrip := by
  have truncated (p c d h l : RegWord) (s : State) : exec (.decode (encodeWord p c d h l)) s = .next (s.respond (.fields
      ⟨p.setWidth 4, c.setWidth 4, d.setWidth 4, h.setWidth 8, l.setWidth 8⟩)) := by
    rw [exec_eq_respond, responseOf, decodeWord_encodeWord]
  constructor
  · intro f s
    refine ⟨_, exec_eq_respond (.encode ..) s, (truncated ..).trans ?_⟩
    simp [State.respond]
  · intro p c d h l s
    exact ⟨_, exec_eq_respond (.encode p c d h l) s, truncated p c d h l s⟩

end Sys2Proof.Machine

/-! PROOFS. 41_host_text.md: PARSE_HEX and its grammar (R47 to R49; 60_exceptions.md R60), field conversion (R50), and the
source's two functions (R52, R53; 60_exceptions.md R58, R62). -/

namespace Sys2Proof.Machine

/-! ## Digits and numerals -/

/-- A character between two others is one of those counted up from the lower. -/
theorem char_between {a b c : Char} (low : a ≤ c) (high : c ≤ b) :
    ∃ k < b.toNat - a.toNat + 1, c = Char.ofNat (a.toNat + k) := by
  have low' : a.toNat ≤ c.toNat := low
  have high' : c.toNat ≤ b.toNat := high
  refine ⟨c.toNat - a.toNat, by omega, ?_⟩
  rw [Nat.add_sub_cancel' low', Char.ofNat_toNat]

/-- Each digit of R47 has its place in the table of R48 as its value. -/
theorem hexDigitValue_of_isHexDigit {c : Char} (hc : isHexDigit c) : hexDigitValue c = some (tableDigit c) := by
  have table : "0123456789abcdefABCDEF".toList.map hexDigitValue =
      "0123456789abcdefABCDEF".toList.map (some ∘ tableDigit) := rfl
  exact List.map_inj_left.1 table c hc

/-- Only the digits of R47 have a value. -/
theorem isHexDigit_of_hexDigitValue {c : Char} (h : (hexDigitValue c).isSome) : isHexDigit c := by
  have digits : ∀ k < 10, isHexDigit (Char.ofNat (48 + k)) := by decide
  have lower : ∀ k < 6, isHexDigit (Char.ofNat (97 + k)) := by decide
  have upper : ∀ k < 6, isHexDigit (Char.ofNat (65 + k)) := by decide
  unfold hexDigitValue at h
  split_ifs at h with hdigit hlower hupper
  · obtain ⟨k, hk, rfl⟩ := char_between hdigit.1 hdigit.2
    exact digits k hk
  · obtain ⟨k, hk, rfl⟩ := char_between hlower.1 hlower.2
    exact lower k hk
  · obtain ⟨k, hk, rfl⟩ := char_between hupper.1 hupper.2
    exact upper k hk
  · cases h

/-- Where every character has its table value, the value read is the one before it moved up, plus the digits' sum. -/
theorem digitsValue_eq_positionalIn {base : Nat} {digit : Char → Option Nat} (acc : Nat) {t : Text}
    (ht : ∀ c ∈ t, digit c = some (tableDigit c)) :
    digitsValue base digit acc t = some (acc * base ^ t.length + positionalIn base t) := by
  induction t generalizing acc with
  | nil => simp [digitsValue, positionalIn]
  | cons c rest ih =>
    rw [digitsValue_cons _ _ _ _ _ _ (ht c (by simp)), ih _ fun x hx => ht x (by simp [hx])]
    simp only [positionalIn, List.length_cons, pow_succ']
    congr 1
    ring

/-- A nonempty string of digits has their sum as its value (41_host_text.md R48). -/
theorem numeralValue_eq_positionalIn {base : Nat} {digit : Char → Option Nat} {t : Text} (hne : t ≠ [])
    (ht : ∀ c ∈ t, digit c = some (tableDigit c)) : numeralValue base digit t = some (positionalIn base t) := by
  cases t with
  | nil => exact absurd rfl hne
  | cons c rest =>
    rw [numeralValue, digitsValue_eq_positionalIn 0 ht]
    simp

/-- A text that has a value is a nonempty string of digits. -/
theorem numeralValue_isSome {base : Nat} {digit : Char → Option Nat} {t : Text} (h : (numeralValue base digit t).isSome) :
    t ≠ [] ∧ ∀ c ∈ t, (digit c).isSome := by
  cases t with
  | nil => cases h
  | cons c rest =>
    obtain ⟨v, hv⟩ := Option.isSome_iff_exists.1 h
    exact ⟨List.cons_ne_nil c rest, digitsValue_all_digits hv⟩

/-! ## PARSE_HEX -/

/-- Taking the optional `0x` off a text of the grammar leaves its digits: they do not begin with `0x` themselves. -/
theorem stripHexPrefix_of_hexGrammar {s digits : Text} (h : hexGrammar s digits) : stripHexPrefix s = digits := by
  obtain ⟨rfl | rfl, -, hdigits⟩ := h
  · unfold stripHexPrefix
    split
    · next rest =>
      have noDigit : ¬ isHexDigit 'x' := by decide
      exact absurd (hdigits 'x' (by simp)) noDigit
    · rfl
  · rfl

/-- A text is what `stripHexPrefix` leaves, or that after `0x`. -/
theorem eq_stripHexPrefix_or (s : Text) : s = stripHexPrefix s ∨ s = '0' :: 'x' :: stripHexPrefix s := by
  unfold stripHexPrefix
  split
  · exact .inr rfl
  · exact .inl rfl

/-- A text of the grammar has its digits' sum as its value. -/
theorem hexTextValue_of_hexGrammar {s digits : Text} (h : hexGrammar s digits) :
    hexTextValue s = some (positionalValue digits) := by
  rw [hexTextValue, stripHexPrefix_of_hexGrammar h]
  obtain ⟨-, hne, hdigits⟩ := h
  exact numeralValue_eq_positionalIn hne fun c hc => hexDigitValue_of_isHexDigit (hdigits c hc)

/-- A text without a value is one outside the grammar. -/
theorem hexTextValue_of_not_hexGrammar {s : Text} (h : ¬ ∃ digits, hexGrammar s digits) : hexTextValue s = none := by
  by_contra hvalue
  obtain ⟨hne, hdigits⟩ := numeralValue_isSome (Option.isSome_iff_ne_none.2 hvalue)
  exact h ⟨stripHexPrefix s, eq_stripHexPrefix_or s, hne, fun c hc => isHexDigit_of_hexDigitValue (hdigits c hc)⟩

theorem parseHex_of_not_hexGrammar {s : Text} (h : ¬ ∃ digits, hexGrammar s digits) (policy : WideHexPolicy) :
    parseHex policy s = .error (.parseError s) := by
  simp only [parseHex, hexTextValue_of_not_hexGrammar h]

theorem parseHex_ignore_of_hexGrammar {s digits : Text} (h : hexGrammar s digits) :
    parseHex .ignore s = .ok (BitVec.ofNat 32 (positionalValue digits)) := by
  simp only [parseHex, hexTextValue_of_hexGrammar h, reduceWide]

/-- A value that fits is the word under either policy. -/
theorem parseHex_of_lt {s digits : Text} (h : hexGrammar s digits) (fits : positionalValue digits < 2 ^ 32)
    (policy : WideHexPolicy) : parseHex policy s = .ok (BitVec.ofNat 32 (positionalValue digits)) := by
  cases policy with
  | ignore => exact parseHex_ignore_of_hexGrammar h
  | reject => simp only [parseHex, hexTextValue_of_hexGrammar h, reduceWide, if_pos fits]

theorem parseHex_reject_of_le {s digits : Text} (h : hexGrammar s digits) (wide : 2 ^ 32 ≤ positionalValue digits) :
    parseHex .reject s = .error (.parseError s) := by
  simp only [parseHex, hexTextValue_of_hexGrammar h, reduceWide, if_neg (Nat.not_lt.2 wide)]

/-- Settles O20: a text has a value exactly where it is in the grammar, and without one PARSE_HEX raises its error. -/
theorem parseAcceptsExactlyTheGrammar : Obligations.ParseAcceptsExactlyTheGrammar := by
  refine fun s => ⟨⟨?_, ?_⟩, parseHex_of_not_hexGrammar⟩
  · rintro ⟨w, hw⟩
    by_contra outside
    rw [parseHex_of_not_hexGrammar outside] at hw
    cases hw
  · rintro ⟨digits, h⟩
    exact ⟨_, parseHex_ignore_of_hexGrammar h⟩

/-- Settles O21: the value of a text of the grammar is its digits' sum, which the policy then takes or refuses. -/
theorem parsedWordIsThePositionalValue : Obligations.ParsedWordIsThePositionalValue := fun _ _ h =>
  ⟨parseHex_ignore_of_hexGrammar h, fun fits => parseHex_of_lt h fits .reject, parseHex_reject_of_le h⟩

/-- PARSE_HEX gives a word or ParseError with its own text. -/
theorem parseHex_error {policy : WideHexPolicy} {s : Text} {e : HostError} (h : parseHex policy s = .error e) :
    e = .parseError s := by
  unfold parseHex at h
  split at h
  · cases h; rfl
  · split at h
    · cases h; rfl
    · cases h

/-- Settles O22: outside the grammar the text has no value; inside it only a wide one under `reject` is refused. -/
theorem parseErrorNamesItsText : Obligations.ParseErrorNamesItsText := by
  intro policy s e
  constructor
  · intro h
    refine ⟨parseHex_error h, or_iff_not_imp_left.2 fun inside => ?_⟩
    obtain ⟨digits, hg⟩ := not_not.1 inside
    have wide : 2 ^ 32 ≤ positionalValue digits := by
      by_contra fits
      rw [parseHex_of_lt hg (by omega)] at h
      cases h
    cases policy with
    | ignore =>
      rw [parseHex_ignore_of_hexGrammar hg] at h
      cases h
    | reject => exact ⟨rfl, digits, hg, wide⟩
  · rintro ⟨rfl, outside | ⟨rfl, digits, hg, wide⟩⟩
    · exact parseHex_of_not_hexGrammar outside policy
    · exact parseHex_reject_of_le hg wide

/-! ## FORMAT_HEX read back -/

/-- A nibble's digit is a digit of R47, and the table gives the nibble back. -/
theorem isHexDigit_hexDigitChar (d : Nibble) : isHexDigit (hexDigitChar d) ∧ tableDigit (hexDigitChar d) = d.toNat := by
  revert d
  decide

theorem isHexDigit_of_mem_hexDigits {count : Nat} {r : RegWord} : ∀ c ∈ hexDigits count r, isHexDigit c := by
  induction count with
  | zero => simp [hexDigits]
  | succ count ih =>
    intro c hc
    rcases List.mem_cons.1 hc with rfl | hc
    · exact (isHexDigit_hexDigitChar _).1
    · exact ih c hc

/-- The sum of a word's lowest digits is the word modulo 16 to their number. -/
theorem positionalValue_hexDigits (count : Nat) (r : RegWord) : positionalValue (hexDigits count r) = r.toNat % 16 ^ count := by
  induction count with
  | zero => simp [hexDigits, positionalIn, Nat.mod_one]
  | succ count ih =>
    have rest : positionalIn 16 (hexDigits count r) = r.toNat % 16 ^ count := ih
    rw [hexDigits, positionalValue, positionalIn, rest, (isHexDigit_hexDigitChar _).2, toNat_extractLsb'_nibble,
      hexDigits_length, pow_succ, Nat.mod_mul, Nat.mul_comm, Nat.add_comm]

theorem formatHex_hexGrammar (r : RegWord) : hexGrammar (formatHex r) (hexDigits 8 r) :=
  ⟨.inr rfl, List.cons_ne_nil _ _, isHexDigit_of_mem_hexDigits⟩

/-- Settles O24: the eight digits' sum is the word itself, which fits under either policy. -/
theorem formattedTextParsesBack : Obligations.FormattedTextParsesBack := by
  intro policy r
  have value : positionalValue (hexDigits 8 r) = r.toNat := by
    rw [positionalValue_hexDigits]
    exact Nat.mod_eq_of_lt r.isLt
  rw [parseHex_of_lt (formatHex_hexGrammar r) (by rw [value]; exact r.isLt), value, BitVec.ofNat_toNat, BitVec.setWidth_eq]

/-! ## TO_FIELD_WORD -/

/-- An integer gives its low 32 bits, two's complement where it is negative. -/
@[simp] theorem toFieldWord_intCast (F : FieldName) (n : Int) : toFieldWord F (.number (n : Rat)) = .ok (BitVec.ofInt 32 n) := by
  rw [toFieldWord, if_pos (Rat.den_intCast n), Rat.num_intCast]

theorem toFieldWord_of_holdsInteger (F : FieldName) {x : HostValue} (h : holdsInteger x) : ∃ w, toFieldWord F x = .ok w := by
  obtain ⟨n, rfl⟩ := h
  exact ⟨_, toFieldWord_intCast F n⟩

/-- A value that is no integer is an error that names it. -/
theorem toFieldWord_of_not_holdsInteger (F : FieldName) {x : HostValue} (h : ¬ holdsInteger x) :
    toFieldWord F x = .error (.invalidField F x) := by
  cases x with
  | number q =>
    have noInteger : q.den ≠ 1 := fun hden => h ⟨q.num, by rw [Rat.coe_int_num_of_den_eq_one hden]⟩
    rw [toFieldWord, if_neg noInteger]
  | nan => rfl
  | infinity negative => rfl
  | text t => rfl
  | boolean b => rfl
  | missing => rfl
  | other description => rfl

/-- The low bits of an integer's word are the integer modulo 2 to their number. -/
theorem toNat_ofInt_mod (n : Int) {k : Nat} (hk : k ≤ 32) : (((BitVec.ofInt 32 n).toNat % 2 ^ k : Nat) : Int) = n % 2 ^ k := by
  have whole : (((BitVec.ofInt 32 n).toNat : Nat) : Int) = n % 2 ^ 32 := by
    rw [BitVec.toNat_ofInt]
    exact Int.toNat_of_nonneg (Int.emod_nonneg _ (by decide))
  rw [Int.natCast_mod, whole, Nat.cast_pow, Nat.cast_ofNat, Int.emod_emod_of_dvd _ (pow_dvd_pow 2 hk)]

/-- Settles O25: the two outcomes of TO_FIELD_WORD, and its word modulo a power of two. -/
theorem fieldConversionKeepsIntegersOnly : Obligations.FieldConversionKeepsIntegersOnly := by
  refine ⟨toFieldWord_intCast, fun F x => toFieldWord_of_not_holdsInteger F, fun n k hk => ?_⟩
  have mask : (BitVec.ofNat 32 (2 ^ k - 1)).toNat = 2 ^ k - 1 := by
    have small : 2 ^ k ≤ 2 ^ 32 := Nat.pow_le_pow_right (by decide) hk
    rw [BitVec.toNat_ofNat, Nat.mod_eq_of_lt (by omega)]
  rw [BitVec.toNat_and, mask, Nat.and_two_pow_sub_one_eq_mod, toNat_ofInt_mod n hk]

/-! ## encode_text -/

/-- The five fields in the order in which encode_text converts them (60_exceptions.md R62). -/
def fieldOrder : List FieldName := [.presc, .scldel, .sdadel, .sclh, .scll]

/-- The words of the given fields, or the first error among them. -/
def fieldWords (f : HostFields) (order : List FieldName) : Except HostError (List RegWord) :=
  order.mapM fun F => toFieldWord F (getHostField f F)

/-- The first field that converts to no word gives its own error, whatever the later ones hold. -/
theorem fieldWords_error {f : HostFields} {before after : List FieldName} {F : FieldName} {e : HostError}
    (hbefore : ∀ G ∈ before, ∃ w, toFieldWord G (getHostField f G) = .ok w)
    (hF : toFieldWord F (getHostField f F) = .error e) : fieldWords f (before ++ F :: after) = .error e := by
  induction before with
  | nil =>
    rw [List.nil_append, fieldWords, List.mapM_cons, hF]
    rfl
  | cons G before ih =>
    obtain ⟨w, hw⟩ := hbefore G (by simp)
    have rest : fieldWords f (before ++ F :: after) = .error e := ih fun G' hG' => hbefore G' (by simp [hG'])
    rw [fieldWords] at rest
    rw [List.cons_append, fieldWords, List.mapM_cons, hw, rest]
    rfl

/-- encode_text fails exactly as the conversion of the five fields in their order. -/
theorem encodeText_fails_as_fieldWords (f : HostFields) :
    (fun _ => ()) <$> encodeText f = (fun _ => ()) <$> fieldWords f fieldOrder := by
  simp [encodeText, fieldWords, fieldOrder, List.mapM_cons, getHostField]

theorem encodeText_of_fieldWords_error {f : HostFields} {e : HostError} (h : fieldWords f fieldOrder = .error e) :
    encodeText f = .error e := by
  have same := encodeText_fails_as_fieldWords f
  rw [h] at same
  cases ht : encodeText f with
  | ok t =>
    rw [ht] at same
    cases same
  | error e' =>
    rw [ht] at same
    cases same
    rfl

/-- Five fields that convert give the text of their word. -/
theorem encodeText_of_toFieldWord {f : HostFields} {p c d h l : RegWord} (hp : toFieldWord .presc f.presc = .ok p)
    (hc : toFieldWord .scldel f.scldel = .ok c) (hd : toFieldWord .sdadel f.sdadel = .ok d)
    (hh : toFieldWord .sclh f.sclh = .ok h) (hl : toFieldWord .scll f.scll = .ok l) :
    encodeText f = .ok (formatHex (encodeWord p c d h l)) := by
  rw [encodeText, hp, hc, hd, hh, hl]
  rfl

/-- Settles O26: the conversions run in the order of R62 and the first that fails ends the call. -/
theorem firstInvalidFieldIsReported : Obligations.FirstInvalidFieldIsReported := by
  refine ⟨fun policy s e h => ?_, fun f F before after order hbefore hF => ?_, fun f hf => ?_⟩
  · rcases decodeTextRequest_cases policy s with ⟨w, -, -, hok⟩ | ⟨e', hparse, -, herror⟩
    · rw [hok] at h
      cases h
    · rw [herror] at h
      cases h
      exact parseHex_error hparse
  · have reported := fieldWords_error (after := after) (fun G hG => toFieldWord_of_holdsInteger G (hbefore G hG))
      (toFieldWord_of_not_holdsInteger F hF)
    rw [order] at reported
    exact encodeText_of_fieldWords_error reported
  · obtain ⟨p, hp⟩ := toFieldWord_of_holdsInteger .presc (hf .presc)
    obtain ⟨c, hc⟩ := toFieldWord_of_holdsInteger .scldel (hf .scldel)
    obtain ⟨d, hd⟩ := toFieldWord_of_holdsInteger .sdadel (hf .sdadel)
    obtain ⟨h, hh⟩ := toFieldWord_of_holdsInteger .sclh (hf .sclh)
    obtain ⟨l, hl⟩ := toFieldWord_of_holdsInteger .scll (hf .scll)
    exact ⟨_, encodeText_of_toFieldWord hp hc hd hh hl⟩

/-- An encoded word as a number: each input modulo 2 to its field's width, at its field's place. -/
theorem encodeWord_toNat (p c d h l : RegWord) :
    (encodeWord p c d h l).toNat = p.toNat % 2 ^ 4 * 2 ^ 28 + c.toNat % 2 ^ 4 * 2 ^ 20 + d.toNat % 2 ^ 4 * 2 ^ 16 +
      h.toNat % 2 ^ 8 * 2 ^ 8 + l.toNat % 2 ^ 8 := by
  obtain ⟨hp, hc, hd, hh, hl⟩ := extractField_encodeWord p c d h l
  have field {F : FieldName} {v : RegWord} (hF : extractField F (encodeWord p c d h l) = v &&& fieldMask F) :
      (encodeWord p c d h l).toNat / 2 ^ fieldOffset F % 2 ^ fieldWidth F = v.toNat % 2 ^ fieldWidth F := by
    rw [← extractField_toNat, hF, BitVec.toNat_and, fieldMask_toNat, Nat.and_two_pow_sub_one_eq_mod]
  have hp := field hp
  have hc := field hc
  have hd := field hd
  have hh := field hh
  have hl := field hl
  have reserved := congrArg BitVec.toNat (encodeWord_reserved p c d h l)
  have bound := (encodeWord p c d h l).isLt
  rw [BitVec.extractLsb'_toNat, Nat.shiftRight_eq_div_pow, BitVec.toNat_ofNat] at reserved
  simp only [fieldOffset, fieldWidth] at hp hc hd hh hl
  omega

/-- Settles O27: the five integers convert to their low 32 bits, of which ENCODE keeps those of each field. -/
theorem encodeTextTruncatesIntegers : Obligations.EncodeTextTruncatesIntegers := by
  intro p c d h l
  refine ⟨encodeWord (.ofInt 32 p) (.ofInt 32 c) (.ofInt 32 d) (.ofInt 32 h) (.ofInt 32 l),
    encodeText_of_toFieldWord (toFieldWord_intCast ..) (toFieldWord_intCast ..) (toFieldWord_intCast ..)
      (toFieldWord_intCast ..) (toFieldWord_intCast ..), ?_⟩
  rw [encodeWord_toNat]
  have nibble (n : Int) := toNat_ofInt_mod n (show 4 ≤ 32 by omega)
  have byte (n : Int) := toNat_ofInt_mod n (show 8 ≤ 32 by omega)
  have hp := nibble p
  have hc := nibble c
  have hd := nibble d
  have hh := byte h
  have hl := byte l
  omega

/-! ## decode_text -/

/-- Settles O28: decode_text ends as PARSE_HEX does, with the fields of its word at their bit ranges. -/
theorem decodeTextGivesFieldsOrParseError : Obligations.DecodeTextGivesFieldsOrParseError := by
  intro policy s
  rcases decodeTextRequest_cases policy s with ⟨w, hparse, -, hdecode⟩ | ⟨e, hparse, -, hdecode⟩
  · rw [decodeWord_eq_extractLsb'] at hdecode
    exact .inl ⟨w, hparse, hdecode⟩
  · obtain rfl := parseHex_error hparse
    exact .inr ⟨hparse, hdecode⟩

/-- Settles O29: the code of each outcome, whatever an error records. -/
theorem errorCodes : Obligations.ErrorCodes := ⟨rfl, fun _ => rfl, fun _ _ => rfl⟩

/-! ## Words and texts there and back -/

/-- ENCODE of the outputs of DECODE is the word without its reserved bits (40_codec.md R45). -/
theorem encodeWord_decodeWord (w : RegWord) :
    encodeWord ((decodeWord w).presc.setWidth 32) ((decodeWord w).scldel.setWidth 32) ((decodeWord w).sdadel.setWidth 32)
      ((decodeWord w).sclh.setWidth 32) ((decodeWord w).scll.setWidth 32) = w &&& allFieldsMask := by
  rw [← encodeWord_extractField, ← setWidth_setWidth_extractField .presc, ← setWidth_setWidth_extractField .scldel,
    ← setWidth_setWidth_extractField .sdadel, ← setWidth_setWidth_extractField .sclh, ← setWidth_setWidth_extractField .scll]
  rfl

/-- A field shown as a host integer converts to the field, zero-extended. -/
theorem toFieldWord_hostNat (F : FieldName) {n : Nat} (v : BitVec n) : toFieldWord F (hostNat v.toNat) = .ok (v.setWidth 32) := by
  have integer := toFieldWord_intCast F v.toNat
  rw [Rat.intCast_natCast, BitVec.ofInt_natCast, BitVec.ofNat_toNat] at integer
  exact integer

/-- encode_text of the fields that decode_text returns. -/
theorem encodeText_hostFieldsOf (f : Fields) : encodeText (hostFieldsOf f) =
    .ok (formatHex (encodeWord (f.presc.setWidth 32) (f.scldel.setWidth 32) (f.sdadel.setWidth 32) (f.sclh.setWidth 32)
      (f.scll.setWidth 32))) :=
  encodeText_of_toFieldWord (toFieldWord_hostNat ..) (toFieldWord_hostNat ..) (toFieldWord_hostNat ..) (toFieldWord_hostNat ..)
    (toFieldWord_hostNat ..)

/-- Settles O19: the word's round trip, and the texts' by PARSE_HEX after FORMAT_HEX. -/
theorem wordsRoundTripScrubbed : Obligations.WordsRoundTripScrubbed := by
  refine ⟨fun w s => ?_, fun w => ?_, fun policy w => ⟨hostFieldsOf (decodeWord w), ?_, ?_⟩⟩
  · refine ⟨decodeWord w, exec_eq_respond (.decode w) s, ?_⟩
    rw [exec_eq_respond, responseOf, encodeWord_decodeWord]
    rfl
  · exact (and_allFieldsMask_eq_self_iff w).trans (and_reservedMask_eq_zero_iff w)
  · simp only [decodeText, formattedTextParsesBack policy w]
  · rw [encodeText_hostFieldsOf, encodeWord_decodeWord]
    rfl

end Sys2Proof.Machine

/-! PROOFS. What one step can do, and what every step keeps: 10_state.md (R13, R16, R17, R20, R23), 41_host_text.md (R54 to
R56), 60_exceptions.md (R57, R59). -/

namespace Sys2Proof.Machine

/-! ## Every step, said once -/

/-- What a step may have done before it issues a request or ends a call: taken a task from the queue, shown a text or fields. -/
structure Prepared (s u : State) : Prop where
  ports : u.ports = s.ports
  response : u.response = s.response
  messages : u.host.messages = s.host.messages
  wideHexPolicy : u.wideHexPolicy = s.wideHexPolicy
  outcomes : u.outcomes = s.outcomes

/-- All that a step can do to a state. -/
inductive StepResult (s : State) : State → Prop where
  /-- Nothing is asked for. -/
  | idle (free : s.ports = none) : StepResult s s
  /-- The host puts a request on the ports. -/
  | issued (u : State) (free : s.ports = none) (prepared : Prepared s u) (c : Caller) (form : CallForm) (j : Instr) :
      StepResult s (u.issue c form j)
  /-- The host ends a call whose conversion failed. -/
  | failed (u : State) (free : s.ports = none) (prepared : Prepared s u) (c : Caller) (e : HostError) :
      StepResult s (complete u c (.error e))
  /-- The block performs the request on the ports. -/
  | answered (q : Issued) (request : s.ports = some q) (i : Instr) :
      StepResult s (complete (s.respond (responseOf i)).releasePorts q.caller (outcomeOf q.form (responseOf i)))

theorem step_result {s t : State} (h : step s = .next t) : StepResult s t := by
  rcases step_cases h with ⟨free, rfl⟩ | ⟨q, request, rfl⟩
  · rcases hostStep_cases s with ⟨-, idle⟩ | ⟨task, rest, -, taken⟩
    · rw [idle]
      exact .idle free
    · rw [taken]
      obtain ⟨u, shown, ran⟩ := runTask_cases (s.setQueue rest) task
      have prepared : Prepared s u := by
        rcases shown with rfl | ⟨x, rfl⟩ | ⟨f, rfl⟩ <;> exact ⟨rfl, rfl, rfl, rfl, rfl⟩
      rcases ran with ⟨c, form, j, issued⟩ | ⟨c, e, failed⟩
      · rw [issued]
        exact .issued u free prepared c form j
      · rw [failed]
        exact .failed u free prepared c e
  · rw [deliver_respond]
    exact .answered q request (decodeRequest q.request)

/-- A step always answers a next state. -/
theorem step_next (s : State) : ∃ t, step s = .next t := by
  cases hports : s.ports with
  | none => exact ⟨_, step_of_ports_none hports⟩
  | some q => exact ⟨_, step_of_request hports⟩

/-- The block's response, in whatever form its caller receives it, is no error (60_exceptions.md R57). -/
theorem outcomeOf_ne_error (form : CallForm) (r : Response) (e : HostError) : outcomeOf form r ≠ .error e := by
  cases form <;> cases r <;> exact nofun

/-! ## Runs and single steps -/

/-- Settles O11: an instruction answers with its response, and a run goes on since every step answers a next state. -/
theorem noOperationAndNoRunStops : Obligations.NoOperationAndNoRunStops := by
  refine ⟨fun i s => ⟨_, exec_eq_respond i s⟩, fun s n => ?_⟩
  induction n generalizing s with
  | zero => exact ⟨s, runsTo_zero s⟩
  | succ n ih =>
    obtain ⟨t, ht⟩ := step_next s
    obtain ⟨u, hu⟩ := ih t
    exact ⟨u, (runsTo_succ ht).2 hu⟩

/-- Settles O1: the values that reset gives. -/
theorem resetHasNoRequestAndNoResponse : Obligations.ResetHasNoRequestAndNoResponse := ⟨rfl, rfl, rfl, rfl, rfl⟩

/-- Settles O30: the host's step issues the request, and the ports that its operation does not use do not change what it
decodes to. -/
theorem queuedRequestReachesThePorts : Obligations.QueuedRequestReachesThePorts := by
  intro s c i rest hports hqueue
  exact ⟨⟨encodeRequest (Config.dontCare s.draws) i, c, .block⟩, step_of_task hports hqueue, rfl, rfl,
    decodeRequest_encodeRequest _ i⟩

/-- Settles O37: the host's step with an empty queue. -/
theorem idleMachineWaits : Obligations.IdleMachineWaits := by
  intro s hports hqueue
  rw [step_of_ports_none hports, hostStep, hqueue]

/-- Settles O38: of all that a step can do only a call that fails gives an error, and then no request is made. -/
theorem errorsNeverReachTheBlock : Obligations.ErrorsNeverReachTheBlock := by
  intro s t c e hstep received
  cases step_result hstep with
  | idle free => simp at received
  | issued u free prepared c' form j =>
    rw [State.issue_outcomes, prepared.outcomes] at received
    simp at received
  | failed u free prepared c' e' =>
    rw [complete_outcomes, prepared.outcomes, List.drop_left, List.mem_singleton] at received
    cases received
    refine ⟨free, ?_, ?_, ?_⟩
    · rw [complete_ports, prepared.ports, free]
    · rw [complete_response, prepared.response]
    · rw [complete_outcomes, prepared.outcomes]
  | answered q request i =>
    rw [complete_outcomes, State.releasePorts_outcomes, State.respond_outcomes, List.drop_left, List.mem_singleton] at received
    exact absurd (Prod.mk.inj received).2.symm (outcomeOf_ne_error _ _ e)

/-! ## Legal responses and outcomes -/

theorem legalResponse_responseOf (i : Instr) : legalResponse (responseOf i) := by
  cases i with
  | decode w => trivial
  | encode p c d h l => exact (and_reservedMask_eq_zero_iff _).2 (encodeWord_reserved p c d h l)

/-- A nibble's digit is one of the sixteen uppercase digits. -/
theorem hexDigitChar_mem (d : Nibble) : hexDigitChar d ∈ "0123456789ABCDEF".toList :=
  List.mem_of_getElem? (uppercaseDigits_getElem?_toNat d)

/-- FORMAT_HEX of a word with bits 27:24 zero has a zero at that digit, and digits at the others. -/
theorem formattedText_formatHex {w : RegWord} (clear : scrubbed w) : formattedText (formatHex w) := by
  have zeroDigit : hexDigitChar (w.extractLsb' 24 4) = '0' := by
    rw [(and_reservedMask_eq_zero_iff w).1 clear]
    rfl
  refine ⟨hexDigitChar (w.extractLsb' 28 4), hexDigitChar (w.extractLsb' 20 4), hexDigitChar (w.extractLsb' 16 4),
    hexDigitChar (w.extractLsb' 12 4), hexDigitChar (w.extractLsb' 8 4), hexDigitChar (w.extractLsb' 4 4),
    hexDigitChar (w.extractLsb' 0 4), ?_, ?_⟩
  · have spelled : formatHex w = ['0', 'x', hexDigitChar (w.extractLsb' 28 4), hexDigitChar (w.extractLsb' 24 4),
        hexDigitChar (w.extractLsb' 20 4), hexDigitChar (w.extractLsb' 16 4), hexDigitChar (w.extractLsb' 12 4),
        hexDigitChar (w.extractLsb' 8 4), hexDigitChar (w.extractLsb' 4 4), hexDigitChar (w.extractLsb' 0 4)] := rfl
    rw [spelled, zeroDigit]
  · simp only [List.forall_mem_cons]
    exact ⟨hexDigitChar_mem _, hexDigitChar_mem _, hexDigitChar_mem _, hexDigitChar_mem _, hexDigitChar_mem _,
      hexDigitChar_mem _, hexDigitChar_mem _, nofun⟩

/-- A field's output, shown as a host integer, is below 2 to the field's width (10_state.md R16). -/
theorem integerBelow_hostNat {n : Nat} (v : BitVec n) : integerBelow n (hostNat v.toNat) := ⟨v.toNat, v.isLt, rfl⟩

theorem fieldsInRange_hostFieldsOf (f : Fields) : fieldsInRange (hostFieldsOf f) :=
  ⟨integerBelow_hostNat f.presc, integerBelow_hostNat f.scldel, integerBelow_hostNat f.sdadel, integerBelow_hostNat f.sclh,
    integerBelow_hostNat f.scll⟩

/-- A legal response reaches its caller as a legal outcome, in either form. -/
theorem legalOutcome_outcomeOf (form : CallForm) {r : Response} (hr : legalResponse r) : legalOutcome (outcomeOf form r) := by
  cases form with
  | block => exact hr
  | text =>
    cases r with
    | fields f => exact fieldsInRange_hostFieldsOf f
    | word w => exact formattedText_formatHex hr

/-- Ending a call with a legal outcome keeps every response and outcome legal. -/
theorem outcomesLegal_complete {s : State} (c : Caller) {o : CallOutcome} (hs : outcomesLegal s) (ho : legalOutcome o) :
    outcomesLegal (complete s c o) := by
  obtain ⟨response, outcomes⟩ := hs
  refine ⟨?_, fun c' o' received => ?_⟩
  · rw [complete_response]
    exact response
  · rw [complete_outcomes, List.mem_append, List.mem_singleton] at received
    rcases received with earlier | now
    · exact outcomes c' o' earlier
    · cases now
      exact ho

/-- Settles O39: of all that a step can do, only the block's answer adds a response, and only it and an error add an outcome. -/
theorem stepKeepsOutcomesLegal : Obligations.StepKeepsOutcomesLegal := by
  intro s t hs hstep
  obtain ⟨response, outcomes⟩ := hs
  cases step_result hstep with
  | idle free => exact ⟨response, outcomes⟩
  | issued u free prepared c form j =>
    refine ⟨?_, ?_⟩
    · rw [State.issue_response, prepared.response]
      exact response
    · rw [State.issue_outcomes, prepared.outcomes]
      exact outcomes
  | failed u free prepared c e =>
    refine outcomesLegal_complete c ⟨?_, ?_⟩ trivial
    · rw [prepared.response]
      exact response
    · rw [prepared.outcomes]
      exact outcomes
  | answered q request i =>
    have legal := legalResponse_responseOf i
    refine outcomesLegal_complete _ ⟨?_, outcomes⟩ (legalOutcome_outcomeOf _ legal)
    intro r hr
    cases hr
    exact legal

/-- Settles O40: at reset there is no response and no outcome. -/
theorem resetOutcomesAreLegal : Obligations.ResetOutcomesAreLegal := by
  obtain ⟨-, response, -, -, outcomes⟩ := resetHasNoRequestAndNoResponse
  refine ⟨fun r hr => ?_, fun c o ho => ?_⟩
  · rw [response] at hr
    cases hr
  · rw [outcomes] at ho
    cases ho

/-! ## Messages and errors -/

theorem uiErrors_append (a b : List (Caller × CallOutcome)) : uiErrors (a ++ b) = uiErrors a ++ uiErrors b := by
  induction a with
  | nil => rfl
  | cons x rest ih =>
    obtain ⟨c, o⟩ := x
    cases c <;> cases o <;> simp only [List.cons_append, uiErrors, ih]

/-- Ending a call adds to the messages exactly the error that the user interface receives by it. -/
theorem messagesMatchErrors_complete {s : State} (c : Caller) (o : CallOutcome) (hs : messagesMatchErrors s) :
    messagesMatchErrors (complete s c o) := by
  have added : (complete s c o).host.messages = s.host.messages ++ uiErrors [(c, o)] := by
    cases c <;> cases o <;> simp [complete_ui, uiErrors]
  rw [messagesMatchErrors, added, hs, complete_outcomes, uiErrors_append]

/-- Settles O41: only the end of a call adds a message or an outcome, and it adds them together. -/
theorem stepKeepsMessagesMatchingErrors : Obligations.StepKeepsMessagesMatchingErrors := by
  intro s t hs hstep
  cases step_result hstep with
  | idle free => exact hs
  | issued u free prepared c form j =>
    rw [messagesMatchErrors, State.issue_host, State.issue_outcomes, prepared.messages, prepared.outcomes]
    exact hs
  | failed u free prepared c e =>
    refine messagesMatchErrors_complete c _ ?_
    rw [messagesMatchErrors, prepared.messages, prepared.outcomes]
    exact hs
  | answered q request i => exact messagesMatchErrors_complete _ _ hs

/-- Settles O42: at reset both histories are empty. -/
theorem resetMessagesMatchErrors : Obligations.ResetMessagesMatchErrors := rfl

/-! ## Histories -/

/-- Ending a call only adds to the messages. -/
theorem complete_extends_messages (s : State) (c : Caller) (o : CallOutcome) :
    s.host.messages <+: (complete s c o).host.messages := by
  rcases complete_messages s c o with same | ⟨e, -, -, grown⟩
  · rw [same]
  · rw [grown]
    exact ⟨[e], rfl⟩

/-- Settles O43: by all that a step can do, each part in turn. -/
theorem stepKeepsPolicyAndHistory : Obligations.StepKeepsPolicyAndHistory := by
  intro s t hstep
  cases step_result hstep with
  | idle free => exact by simp [free]
  | issued u free prepared c form j =>
    simp [prepared.wideHexPolicy, prepared.outcomes, prepared.messages, prepared.response, free]
  | failed u free prepared c e =>
    have grown := complete_extends_messages u c (.error e)
    rw [prepared.messages] at grown
    simp [prepared.wideHexPolicy, prepared.outcomes, prepared.response, free, grown]
  | answered q request i =>
    have grown := complete_extends_messages (s.respond (responseOf i)).releasePorts q.caller (outcomeOf q.form (responseOf i))
    simpa using grown

end Sys2Proof.Machine

/-! PROOFS. What calls and changes of the user's inputs come to in a run: 60_exceptions.md R66, 41_host_text.md R52 to R56,
20_memory.md R30. -/

namespace Sys2Proof.Machine

/-! ## Runs -/

theorem runsTo_add {m n : Nat} {s t u : State} (first : runsTo m s t) (second : runsTo n t u) : runsTo (m + n) s u := by
  induction m generalizing s with
  | zero =>
    cases first
    rwa [Nat.zero_add]
  | succ m ih =>
    obtain ⟨s', hs'⟩ := step_next s
    rw [Nat.succ_add]
    exact (runsTo_succ hs').2 (ih ((runsTo_succ hs').1 first))

theorem runsTo_one {s t : State} (h : step s = .next t) : runsTo 1 s t := (runsTo_succ h).2 (runsTo_zero t)

/-- An idle machine waits for any number of steps. -/
theorem runsTo_idle (n : Nat) {s : State} (hports : s.ports = none) (hqueue : s.queue = []) : runsTo n s s := by
  induction n with
  | zero => exact runsTo_zero s
  | succ n ih => exact (runsTo_succ (idleMachineWaits s hports hqueue)).2 ih

/-! ## One request and its answer -/

/-- The state in which the request that `s` issues has had its response, before the call ends. -/
def State.answered (s : State) (c : Caller) (form : CallForm) (j : Instr) : State :=
  ((s.issue c form j).respond (responseOf j)).releasePorts

section
variable (s : State) (c : Caller) (form : CallForm) (j : Instr)

@[simp] theorem State.answered_ports : (s.answered c form j).ports = none := rfl
@[simp] theorem State.answered_host : (s.answered c form j).host = s.host := rfl
@[simp] theorem State.answered_wideHexPolicy : (s.answered c form j).wideHexPolicy = s.wideHexPolicy := rfl
@[simp] theorem State.answered_queue : (s.answered c form j).queue = s.queue := rfl
@[simp] theorem State.answered_outcomes : (s.answered c form j).outcomes = s.outcomes := rfl

/-- The step after a request is issued performs it and ends its call. -/
theorem step_issue :
    step (s.issue c form j) = .next (complete (s.answered c form j) c (outcomeOf form (responseOf j))) := by
  rw [step_of_request (State.issue_ports s c form j), deliver_respond, decodeRequest_encodeRequest]
  rfl

end

/-- A call's task issues a request whose answer is the call's result, or ends the call with the error that is its result. -/
theorem runTask_taskOfCall (s : State) (c : Caller) (x : Call) :
    (∃ form j, runTask s (taskOfCall c x) = s.issue c form j ∧
      resultOfCall s.wideHexPolicy x = outcomeOf form (responseOf j)) ∨
    ∃ e, runTask s (taskOfCall c x) = complete s c (.error e) ∧ resultOfCall s.wideHexPolicy x = .error e := by
  cases x with
  | request i => exact .inl ⟨.block, i, rfl, rfl⟩
  | decodeText t =>
    rcases decodeTextRequest_cases s.wideHexPolicy t with ⟨w, -, request, result⟩ | ⟨e, -, request, result⟩
    · exact .inl ⟨.text, .decode w, by rw [taskOfCall, runTask, request, startCall], by rw [resultOfCall, result]; rfl⟩
    · exact .inr ⟨e, by rw [taskOfCall, runTask, request, startCall], by rw [resultOfCall, result]⟩
  | encodeText f =>
    rcases encodeTextRequest_cases f with ⟨p, c', d, h, l, request, result⟩ | ⟨e, request, result⟩
    · exact .inl ⟨.text, .encode p c' d h l, by rw [taskOfCall, runTask, request, startCall],
        by rw [resultOfCall, result]; rfl⟩
    · exact .inr ⟨e, by rw [taskOfCall, runTask, request, startCall], by rw [resultOfCall, result]⟩

/-! ## A change of the user's inputs -/

/-- A changed text is shown, and is then a call of decode_text by the user interface (41_host_text.md R54). -/
theorem runTask_textChanged (s : State) (x : Text) :
    runTask s (.textChanged x) = runTask (s.showText x) (taskOfCall .ui (.decodeText x)) := rfl

/-- A changed field is shown, and is then a call of encode_text by the user interface (41_host_text.md R55). -/
theorem runTask_fieldChanged (s : State) (F : FieldName) (x : HostValue) :
    runTask s (.fieldChanged F x) = runTask (s.showFields (setHostField s.host.fields F x))
      (taskOfCall .ui (.encodeText (setHostField s.host.fields F x))) := rfl

/-- A call that ends with an error takes one step. -/
theorem runTask_of_error {s : State} (c : Caller) {x : Call} {e : HostError} (h : resultOfCall s.wideHexPolicy x = .error e) :
    runTask s (taskOfCall c x) = complete s c (.error e) := by
  rcases runTask_taskOfCall s c x with ⟨form, j, -, result⟩ | ⟨e', failed, result⟩
  · exact absurd (result.symm.trans h) (outcomeOf_ne_error form _ e)
  · rw [failed, CallOutcome.error.inj (result.symm.trans h)]

/-- A call that ends without an error ends in the step after its task. -/
theorem step_runTask_of_no_error {s : State} (c : Caller) {x : Call} (h : ∀ e, resultOfCall s.wideHexPolicy x ≠ .error e) :
    ∃ form j, step (runTask s (taskOfCall c x)) =
      .next (complete (s.answered c form j) c (resultOfCall s.wideHexPolicy x)) := by
  rcases runTask_taskOfCall s c x with ⟨form, j, issued, result⟩ | ⟨e, -, result⟩
  · refine ⟨form, j, ?_⟩
    rw [issued, result, step_issue]
  · exact absurd result (h e)

/-- Settles O33: the changed text is shown, and its call of decode_text ends with the error at once. -/
theorem textThatFailsToParseKeepsTheFields : Obligations.TextThatFailsToParseKeepsTheFields := by
  intro s x rest hports hqueue hfails
  have result : resultOfCall s.wideHexPolicy (.decodeText x) = .error (.parseError x) := by
    rcases decodeTextGivesFieldsOrParseError s.wideHexPolicy x with ⟨w, hw, -⟩ | ⟨-, herror⟩
    · exact absurd ⟨w, hw⟩ hfails
    · rw [resultOfCall, herror]
  rw [step_of_task hports hqueue, runTask_textChanged, runTask_of_error .ui (by exact result)]
  rfl

/-- Settles O36: the changed field is shown, and its call of encode_text ends with the error at once. -/
theorem fieldChangeThatFailsKeepsTheText : Obligations.FieldChangeThatFailsKeepsTheText := by
  intro s F x rest e hports hqueue hfails
  have result : resultOfCall s.wideHexPolicy (.encodeText (setHostField s.host.fields F x)) = .error e := by
    rw [resultOfCall, hfails]
  rw [step_of_task hports hqueue, runTask_fieldChanged, runTask_of_error .ui (by exact result)]
  rfl

/-- Settles O34: the changed text is shown, and its call of decode_text ends with the fields in the second step. -/
theorem textThatParsesShowsItsFields : Obligations.TextThatParsesShowsItsFields := by
  intro s x rest f hports hqueue hparses
  have result : resultOfCall s.wideHexPolicy (.decodeText x) = .fields f := by rw [resultOfCall, hparses]
  obtain ⟨form, j, second⟩ := step_runTask_of_no_error (s := (s.setQueue rest).showText x) .ui (x := .decodeText x)
    (fun e h => CallOutcome.noConfusion (result.symm.trans h))
  rw [← runTask_textChanged, State.showText_wideHexPolicy, State.setQueue_wideHexPolicy, result] at second
  refine ⟨_, runsTo_add (runsTo_one (step_of_task hports hqueue)) (runsTo_one second), ?_, ?_, ?_, ?_⟩
  · rw [complete_ports, State.answered_ports]
  · rw [complete_host]
    rfl
  · rw [complete_outcomes]
    rfl
  · rcases complete_queue (((s.setQueue rest).showText x).answered .ui form j) .ui (.fields f) with same | ⟨g, -, hg, again⟩
    · exact .inl same
    · cases hg
      exact .inr again

/-- Settles O35: the changed field is shown, and its call of encode_text ends with the text in the second step. -/
theorem fieldChangeShowsTheText : Obligations.FieldChangeShowsTheText := by
  intro s F x rest u hports hqueue hencodes
  have result : resultOfCall s.wideHexPolicy (.encodeText (setHostField s.host.fields F x)) = .text u := by
    rw [resultOfCall, hencodes]
  obtain ⟨form, j, second⟩ := step_runTask_of_no_error
    (s := (s.setQueue rest).showFields (setHostField s.host.fields F x)) .ui
    (x := .encodeText (setHostField s.host.fields F x)) (fun e h => CallOutcome.noConfusion (result.symm.trans h))
  have changed := runTask_fieldChanged (s.setQueue rest) F x
  rw [State.setQueue_host] at changed
  rw [← changed, State.showFields_wideHexPolicy, State.setQueue_wideHexPolicy, result] at second
  refine ⟨_, runsTo_add (runsTo_one (step_of_task hports hqueue)) (runsTo_one second), ?_, ?_, ?_, rfl⟩
  · rw [complete_ports, State.answered_ports]
  · rw [complete_host]
    rfl
  · rw [complete_outcomes]
    rfl

/-! ## The calls of any callers -/

/-- From `s` the machine has come to `t`: the given outcomes are received and shown, no request is being made, and the given
tasks are left. -/
structure Served (s : State) (answer : List (Caller × CallOutcome)) (rest : List Task) (t : State) : Prop where
  ports : t.ports = none
  queue : t.queue = rest
  wideHexPolicy : t.wideHexPolicy = s.wideHexPolicy
  outcomes : t.outcomes = s.outcomes ++ answer
  host : t.host = viewAfter s.host answer

theorem Served.trans {s t u : State} {a b : List (Caller × CallOutcome)} {rest rest' : List Task} (hst : Served s a rest t)
    (htu : Served t b rest' u) : Served s (a ++ b) rest' u where
  ports := htu.ports
  queue := htu.queue
  wideHexPolicy := htu.wideHexPolicy.trans hst.wideHexPolicy
  outcomes := by rw [htu.outcomes, hst.outcomes, List.append_assoc]
  host := by rw [htu.host, hst.host, viewAfter_append]

/-- The end of a call serves its caller, and leaves the queue that it leaves. -/
theorem Served.of_complete {s : State} (c : Caller) (o : CallOutcome) {rest : List Task} (hports : s.ports = none)
    (hqueue : (complete s c o).queue = rest) : Served s [(c, o)] rest (complete s c o) where
  ports := by rw [complete_ports, hports]
  queue := hqueue
  wideHexPolicy := complete_wideHexPolicy s c o
  outcomes := complete_outcomes s c o
  host := complete_host s c o

/-- A call at the head of the queue ends within two steps, with its own result. -/
theorem call_completes {s : State} {c : Caller} {x : Call} {rest : List Task} (hports : s.ports = none)
    (hqueue : s.queue = taskOfCall c x :: rest) :
    ∃ n ≤ 2, ∃ u, runsTo n s (complete u c (resultOfCall s.wideHexPolicy x)) ∧ Served s [] rest u := by
  have taken := runsTo_one (step_of_task hports hqueue)
  rcases runTask_taskOfCall (s.setQueue rest) c x with ⟨form, j, issued, result⟩ | ⟨e, failed, result⟩
  · refine ⟨2, le_rfl, (s.setQueue rest).answered c form j, ?_, rfl, rfl, rfl, (List.append_nil _).symm, rfl⟩
    rw [State.setQueue_wideHexPolicy] at result
    rw [issued] at taken
    rw [result]
    exact runsTo_add taken (runsTo_one (step_issue ..))
  · refine ⟨1, by omega, s.setQueue rest, ?_, hports, rfl, rfl, (List.append_nil _).symm, rfl⟩
    rw [State.setQueue_wideHexPolicy] at result
    rw [failed] at taken
    rw [result]
    exact taken

/-- encode_text gives no fields, so at the user interface its end asks for no re-encode. -/
theorem resultOfCall_encodeText_ne_fields (policy : WideHexPolicy) (f g : HostFields) :
    resultOfCall policy (.encodeText f) ≠ .fields g := by
  cases h : encodeText f <;> simp [resultOfCall, h]

/-- A call at the head of the queue is served, with the re-encode that may follow it at the user interface, before the rest. -/
theorem call_served {s : State} {c : Caller} {x : Call} {rest : List Task} (hports : s.ports = none)
    (hqueue : s.queue = taskOfCall c x :: rest) :
    ∃ n ≤ stepsOfCall c, ∃ t answer, runsTo n s t ∧ answersOfCall s.wideHexPolicy c x answer ∧ Served s answer rest t := by
  obtain ⟨n, hn, u, hrun, hu⟩ := call_completes hports hqueue
  rcases complete_queue u c (resultOfCall s.wideHexPolicy x) with plain | ⟨f, rfl, result, again⟩
  · rw [hu.queue] at plain
    have steps : 2 ≤ stepsOfCall c := by cases c <;> simp [stepsOfCall]
    exact ⟨n, hn.trans steps, _, _, hrun, .inl rfl, hu.trans (.of_complete c _ hu.ports plain)⟩
  · rw [hu.queue] at again
    have hv := hu.trans (.of_complete .ui _ hu.ports again)
    obtain ⟨m, hm, u', hrun', hu'⟩ := call_completes (x := .encodeText f) hv.ports hv.queue
    rw [hv.wideHexPolicy] at hrun'
    rcases complete_queue u' .ui (resultOfCall s.wideHexPolicy (.encodeText f)) with plain | ⟨g, -, hg, -⟩
    · rw [hu'.queue] at plain
      have steps : n + m ≤ stepsOfCall .ui := Nat.add_le_add hn hm
      have served := (hv.trans hu').trans (.of_complete .ui _ hu'.ports plain)
      exact ⟨n + m, steps, _, _, runsTo_add hrun hrun', .inr ⟨f, rfl, result, by rw [result]; rfl⟩, served⟩
    · exact absurd hg (resultOfCall_encodeText_ne_fields _ f g)

/-- The calls at the head of the queue are served one after the other, before the rest. -/
theorem calls_served {s : State} {calls : List (Caller × Call)} {rest : List Task} (hports : s.ports = none)
    (hqueue : s.queue = calls.map (fun x => taskOfCall x.1 x.2) ++ rest) :
    ∃ n ≤ (calls.map fun x => stepsOfCall x.1).sum, ∃ t answers, runsTo n s t ∧
      List.Forall₂ (fun x answer => answersOfCall s.wideHexPolicy x.1 x.2 answer) calls answers ∧
      Served s answers.flatten rest t := by
  induction calls generalizing s with
  | nil => exact ⟨0, le_rfl, s, [], runsTo_zero s, .nil, hports, hqueue, rfl, (List.append_nil _).symm, rfl⟩
  | cons x calls ih =>
    obtain ⟨n, hn, t, answer, hrun, hanswer, ht⟩ := call_served hports hqueue
    obtain ⟨m, hm, u, answers, hrun', hanswers, hu⟩ := ih ht.ports ht.queue
    rw [ht.wideHexPolicy] at hanswers
    exact ⟨n + m, Nat.add_le_add hn hm, u, answer :: answers, runsTo_add hrun hrun', .cons hanswer hanswers, ht.trans hu⟩

/-- Settles O31: the calls are served in turn, and with nothing left the machine waits out the steps that remain. -/
theorem everyCallReceivesItsOwnResult : Obligations.EveryCallReceivesItsOwnResult := by
  intro s calls rest hports hqueue
  obtain ⟨n, hn, t, answers, hrun, hanswers, ht⟩ := calls_served hports hqueue
  refine ⟨n, t, answers, hn, hrun, ht.ports, ht.queue, hanswers, ht.outcomes, ht.host, ?_⟩
  rintro rfl
  have waited := runsTo_add hrun (runsTo_idle ((calls.map fun x => stepsOfCall x.1).sum - n) ht.ports ht.queue)
  rwa [Nat.add_sub_cancel' hn] at waited

/-! ## The order of the calls -/

/-- Among what the callers receive is each call's own result, in the order of the calls. -/
theorem results_sublist_answers {policy : WideHexPolicy} {calls : List (Caller × Call)}
    {answers : List (List (Caller × CallOutcome))}
    (h : List.Forall₂ (fun x answer => answersOfCall policy x.1 x.2 answer) calls answers) :
    (calls.map fun x => (x.1, resultOfCall policy x.2)).Sublist answers.flatten := by
  induction h with
  | nil => exact .slnil
  | @cons x answer calls answers hanswer _ ih =>
    have own : [(x.1, resultOfCall policy x.2)].Sublist answer := by
      rcases hanswer with rfl | ⟨f, hui, result, rfl⟩
      · exact .refl _
      · rw [hui, result]
        exact .cons_cons _ (List.nil_sublist _)
    exact own.append ih

theorem othersAmong_append (a b : List (Caller × CallOutcome)) : othersAmong (a ++ b) = othersAmong a ++ othersAmong b :=
  List.filter_append a b

/-- The callers other than the user interface receive each call's own result and nothing else. -/
theorem othersAmong_answers {policy : WideHexPolicy} {calls : List (Caller × Call)}
    {answers : List (List (Caller × CallOutcome))}
    (h : List.Forall₂ (fun x answer => answersOfCall policy x.1 x.2 answer) calls answers) :
    othersAmong answers.flatten = othersAmong (calls.map fun x => (x.1, resultOfCall policy x.2)) := by
  induction h with
  | nil => rfl
  | @cons x answer calls answers hanswer _ ih =>
    have own : othersAmong answer = othersAmong [(x.1, resultOfCall policy x.2)] := by
      rcases hanswer with rfl | ⟨f, hui, -, rfl⟩
      · rfl
      · rw [hui]
        rfl
    rw [List.flatten_cons, othersAmong_append, own, ih, ← othersAmong_append]
    rfl

/-- Settles O32: in either order the callers receive their calls' own results, which are the same up to the order. -/
theorem interleavingDoesNotMatter : Obligations.InterleavingDoesNotMatter := by
  rintro s _ calls calls' hperm hports hqueue rfl
  have queue : s.queue = calls.map (fun x => taskOfCall x.1 x.2) ++ [] := by rw [hqueue, List.append_nil]
  obtain ⟨_, t, answers, -, -, -, tqueue, hanswers, toutcomes, -, trun⟩ := everyCallReceivesItsOwnResult s calls [] hports queue
  obtain ⟨_, t', answers', -, -, -, tqueue', hanswers', toutcomes', -, trun'⟩ := everyCallReceivesItsOwnResult
    { s with queue := calls'.map (fun x => taskOfCall x.1 x.2) } calls' [] hports (List.append_nil _).symm
  have results := hperm.map fun x => (x.1, resultOfCall s.wideHexPolicy x.2)
  refine ⟨t, t', trun rfl, trun' rfl, tqueue, tqueue', ?_, ?_, ?_⟩
  · rw [toutcomes, List.drop_left]
    exact (results_sublist_answers hanswers).subperm
  · rw [toutcomes', List.drop_left]
    exact results.subperm.trans (results_sublist_answers hanswers').subperm
  · rw [toutcomes, toutcomes', List.drop_left, List.drop_left, othersAmong_answers hanswers, othersAmong_answers hanswers']
    exact results.filter _

end Sys2Proof.Machine

/-! PROOFS. 30_encoding.md R39: how lines of a program are read. -/

namespace Sys2Proof.Machine

/-! ## Number literals -/

theorem decimalDigitValue_of_mem {c : Char} (hc : c ∈ "0123456789".toList) : decimalDigitValue c = some (tableDigit c) := by
  have table : "0123456789".toList.map decimalDigitValue = "0123456789".toList.map (some ∘ tableDigit) := rfl
  exact List.map_inj_left.1 table c hc

theorem numeralValue_of_decimalNumeral {t : Text} (h : decimalNumeral t) :
    numeralValue 10 decimalDigitValue t = some (positionalIn 10 t) := by
  obtain ⟨hne, hdigits⟩ := h
  exact numeralValue_eq_positionalIn hne fun c hc => decimalDigitValue_of_mem (hdigits c hc)

/-- A text whose second character is not `x` is read as a decimal literal. -/
theorem naturalLiteral_of_no_x {t : Text} (h : 'x' ∉ t) : naturalLiteral t = numeralValue 10 decimalDigitValue t := by
  unfold naturalLiteral
  split
  · simp at h
  · rfl

/-- A decimal numeral holds no other characters than its digits. -/
theorem not_mem_of_decimalNumeral {t : Text} {c : Char} (h : decimalNumeral t) (hc : c ∉ "0123456789".toList) : c ∉ t := by
  obtain ⟨-, hdigits⟩ := h
  exact fun hmem => hc (hdigits c hmem)

/-- An integer literal is read as the number that it spells. -/
theorem naturalLiteral_of_spellsInteger {t : Text} {n : Nat} (h : spellsInteger t n) : naturalLiteral t = some n := by
  rcases h with ⟨decimal, rfl⟩ | ⟨digits, rfl, hne, hdigits, rfl⟩
  · rw [naturalLiteral_of_no_x (not_mem_of_decimalNumeral decimal (by decide)), numeralValue_of_decimalNumeral decimal]
  · exact numeralValue_eq_positionalIn hne fun c hc => hexDigitValue_of_isHexDigit (hdigits c hc)

theorem operandLiteral_of_lt {t : Text} {n : Nat} (h : spellsInteger t n) (fits : n < 2 ^ 32) : operandLiteral t = .ok n := by
  have small : literalFits n = true := decide_eq_true fits
  simp only [operandLiteral, naturalLiteral_of_spellsInteger h, small, if_true]

theorem operandLiteral_of_le {t : Text} {n : Nat} (h : spellsInteger t n) (wide : 2 ^ 32 ≤ n) :
    operandLiteral t = .error (.literalTooWide t) := by
  have large : literalFits n = false := decide_eq_false (Nat.not_lt.2 wide)
  simp only [operandLiteral, naturalLiteral_of_spellsInteger h, large, Bool.false_eq_true, if_false]

/-- What is read as an operand fits in 32 bits. -/
theorem literalFits_of_operandLiteral {t : Text} {n : Nat} (h : operandLiteral t = .ok n) : literalFits n = true := by
  unfold operandLiteral at h
  split at h
  · cases h
  · split_ifs at h with fits
    cases h
    exact fits

/-- A text that is read as one word: it is not empty and has characters of a word only. -/
def isWord (t : Text) : Prop := t ≠ [] ∧ ∀ c ∈ t, isWordChar c = true

/-- For a text written out, that it is a word is evaluated. -/
theorem isWord_of_all {t : Text} (h : (!t.isEmpty && t.all isWordChar) = true) : isWord t := by
  rw [Bool.and_eq_true, Bool.not_eq_true', List.isEmpty_eq_false_iff, List.all_eq_true] at h
  exact h

theorem isWordChar_of_isHexDigit {c : Char} (hc : isHexDigit c) : isWordChar c = true := by
  have all : ("0123456789abcdefABCDEF".toList.all isWordChar) = true := rfl
  exact List.all_eq_true.1 all c hc

theorem isWordChar_of_mem_decimal {c : Char} (hc : c ∈ "0123456789".toList) : isWordChar c = true := by
  have all : ("0123456789".toList.all isWordChar) = true := rfl
  exact List.all_eq_true.1 all c hc

theorem isWord_of_decimalNumeral {t : Text} (h : decimalNumeral t) : isWord t := by
  obtain ⟨hne, hdigits⟩ := h
  exact ⟨hne, fun c hc => isWordChar_of_mem_decimal (hdigits c hc)⟩

theorem isWord_of_spellsInteger {t : Text} {n : Nat} (h : spellsInteger t n) : isWord t := by
  rcases h with ⟨decimal, -⟩ | ⟨digits, rfl, -, hdigits, -⟩
  · exact isWord_of_decimalNumeral decimal
  · refine ⟨List.cons_ne_nil _ _, ?_⟩
    simp only [List.forall_mem_cons]
    exact ⟨rfl, rfl, fun c hc => isWordChar_of_isHexDigit (hdigits c hc)⟩

/-! ## Lines as tokens -/

/-- A word before a character that closes it. -/
theorem tokens_word_before {w : Text} {c : Char} {rest : Text} {ts : List Token} (hw : isWord w) (hc : isWordChar c = false)
    (h : tokens .between (c :: rest) = .ok ts) : tokens .between (w ++ c :: rest) = .ok (.word w :: ts) := by
  obtain ⟨hne, hchars⟩ := hw
  rw [tokens_word_stop hne hchars hc, h]
  rfl

theorem tokens_mark_before {c : Char} {rest : Text} {ts : List Token} (hm : isMark c = true)
    (h : tokens .between rest = .ok ts) : tokens .between (c :: rest) = .ok (.mark c :: ts) := by
  rw [tokens_mark rest hm, h]
  rfl

theorem tokens_quoted_before {u rest : Text} {ts : List Token} (hu : '"' ∉ u) (h : tokens .between rest = .ok ts) :
    tokens .between ('"' :: (u ++ '"' :: rest)) = .ok (.quoted u :: ts) := by
  rw [tokens_quoted u rest hu, h]
  rfl

/-- An operand with the comma and the space that follow it. -/
theorem tokens_word_comma {w rest : Text} {ts : List Token} (hw : isWord w) (h : tokens .between rest = .ok ts) :
    tokens .between (w ++ (", ".toList ++ rest)) = .ok (.word w :: .mark ',' :: ts) :=
  tokens_word_before hw rfl (tokens_mark_before rfl h)

/-- A line that falls into tokens is what the tokens make. -/
theorem parseLine_of_tokens {t : Text} {ts : List Token} (h : tokens .between t = .ok ts) : parseLine t = lineOfTokens ts := by
  rw [parseLine, h]

/-! ## Lines of a mnemonic form -/

theorem tokens_decode_line {t : Text} (ht : isWord t) :
    tokens .between ("DECODE ".toList ++ t) = .ok [.word "DECODE".toList, .word t] := by
  obtain ⟨hne, hchars⟩ := ht
  have text : "DECODE ".toList ++ t = "DECODE".toList ++ ' ' :: t := by simp
  rw [text]
  refine tokens_word_before (isWord_of_all rfl) rfl ?_
  rw [tokens_space, tokens_word_end hne hchars]

theorem lineOfTokens_decode (t : Text) : lineOfTokens [.word "DECODE".toList, .word t] = (decodeLine t).map some := rfl

theorem lineOfTokens_encode (p c d h l : Text) :
    lineOfTokens [.word "ENCODE".toList, .word p, .mark ',', .word c, .mark ',', .word d, .mark ',', .word h, .mark ',',
        .word l] = (encodeLine p c d h l).map some := rfl

theorem lineOfTokens_call (name : Text) (args : List Token) :
    lineOfTokens (.word name :: .mark '(' :: args) = (callLine name args).map some := by
  simp [lineOfTokens]

/-- Settles O44: the line's tokens are the mnemonic and the literal, or the name and the quoted text of the call. -/
theorem decodeLinesAreReadAsWritten : Obligations.DecodeLinesAreReadAsWritten := by
  have mnemonic {t : Text} {n : Nat} (h : spellsInteger t n) :
      parseLine ("DECODE ".toList ++ t) = (decodeLine t).map some := by
    rw [parseLine_of_tokens (tokens_decode_line (isWord_of_spellsInteger h)), lineOfTokens_decode]
  refine ⟨fun t n h fits => ?_, fun t n h wide => ?_, fun t ht => ?_⟩
  · rw [mnemonic h, decodeLine, operandLiteral_of_lt h fits]
    rfl
  · rw [mnemonic h, decodeLine, operandLiteral_of_le h wide]
    rfl
  · have text : "decode(\"".toList ++ t ++ "\")".toList = "decode".toList ++ '(' :: '"' :: (t ++ '"' :: [')']) := by simp
    have closing : tokens .between [')'] = .ok [.mark ')'] := rfl
    have call := tokens_mark_before (c := '(') rfl (tokens_quoted_before ht closing)
    rw [text, parseLine_of_tokens (tokens_word_before (isWord_of_all rfl) rfl call), lineOfTokens_call]
    rfl

/-- Settles O47: the line's tokens are the mnemonic and the five literals with a comma after each but the last. -/
theorem encodeLinesAreReadAsWritten : Obligations.EncodeLinesAreReadAsWritten := by
  intro tp tc td th tl p c d h l hp hc hd hh hl fitp fitc fitd fith fitl
  obtain ⟨lne, lchars⟩ := isWord_of_spellsInteger hl
  have operands := tokens_word_comma (isWord_of_spellsInteger hp) <| tokens_word_comma (isWord_of_spellsInteger hc) <|
    tokens_word_comma (isWord_of_spellsInteger hd) <| tokens_word_comma (isWord_of_spellsInteger hh) (tokens_word_end lne lchars)
  rw [← tokens_space] at operands
  have text : "ENCODE ".toList ++ tp ++ ", ".toList ++ tc ++ ", ".toList ++ td ++ ", ".toList ++ th ++ ", ".toList ++ tl =
      "ENCODE".toList ++ ' ' :: (tp ++ (", ".toList ++ (tc ++ (", ".toList ++ (td ++ (", ".toList ++ (th ++
        (", ".toList ++ tl)))))))) := by simp
  rw [text, parseLine_of_tokens (tokens_word_before (isWord_of_all rfl) rfl operands), lineOfTokens_encode, encodeLine,
    operandLiteral_of_lt hp fitp, operandLiteral_of_lt hc fitc, operandLiteral_of_lt hd fitd, operandLiteral_of_lt hh fith,
    operandLiteral_of_lt hl fitl]
  rfl

/-! ## Accepted lines -/

/-- A result mapped to an accepted one was accepted. -/
theorem exists_of_map_eq_ok {α β : Type} {f : α → β} {x : Except SyntaxRefusal α} {b : β} (h : x.map f = .ok b) :
    ∃ a, x = .ok a ∧ f a = b := by
  cases x with
  | error e => cases h
  | ok a => exact ⟨a, rfl, Except.ok.inj h⟩

/-- Where a reading goes on to be accepted, its first part was. -/
theorem exists_of_bind_eq_ok {α β : Type} {f : α → Except SyntaxRefusal β} {x : Except SyntaxRefusal α} {b : β}
    (h : x >>= f = .ok b) : ∃ a, x = .ok a ∧ f a = .ok b := by
  cases x with
  | error e => cases h
  | ok a => exact ⟨a, rfl, h⟩

theorem wellFormed_of_decodeLine {w : Text} {line : Line} (h : decodeLine w = .ok line) : line.wellFormed = true := by
  obtain ⟨n, hn, h⟩ := exists_of_bind_eq_ok h
  cases h
  exact literalFits_of_operandLiteral hn

theorem wellFormed_of_encodeLine {p c d h l : Text} {line : Line} (hline : encodeLine p c d h l = .ok line) :
    line.wellFormed = true := by
  obtain ⟨np, hp, hline⟩ := exists_of_bind_eq_ok hline
  obtain ⟨nc, hc, hline⟩ := exists_of_bind_eq_ok hline
  obtain ⟨nd, hd, hline⟩ := exists_of_bind_eq_ok hline
  obtain ⟨nh, hh, hline⟩ := exists_of_bind_eq_ok hline
  obtain ⟨nl, hl, hline⟩ := exists_of_bind_eq_ok hline
  cases hline
  simp [Line.wellFormed, literalFits_of_operandLiteral hp, literalFits_of_operandLiteral hc,
    literalFits_of_operandLiteral hd, literalFits_of_operandLiteral hh, literalFits_of_operandLiteral hl]

/-- A host call takes any text and any fields, so its line is well formed. -/
theorem wellFormed_of_callLine {name : Text} {args : List Token} {l : Line} (h : callLine name args = .ok l) :
    l.wellFormed = true := by
  unfold callLine at h
  split_ifs at h
  · split at h
    · cases h; rfl
    · cases h
  · split at h
    · split_ifs at h
      cases h; rfl
    · split_ifs at h
      obtain ⟨f, -, rfl⟩ := exists_of_map_eq_ok h
      rfl
    · cases h

/-- Whatever tokens make a line, its literals fit in 32 bits. -/
theorem wellFormed_of_lineOfTokens {ts : List Token} {l : Line} (h : lineOfTokens ts = .ok (some l)) : l.wellFormed = true := by
  unfold lineOfTokens at h
  split at h
  · cases h
  · split_ifs at h
    obtain ⟨line, hline, same⟩ := exists_of_map_eq_ok h
    cases same
    exact wellFormed_of_decodeLine hline
  · split_ifs at h
    obtain ⟨line, hline, same⟩ := exists_of_map_eq_ok h
    cases same
    exact wellFormed_of_encodeLine hline
  · obtain ⟨line, hline, same⟩ := exists_of_map_eq_ok h
    cases same
    exact wellFormed_of_callLine hline
  · cases h

/-- Settles O45: by the forms of a line, whose operands are read only where they fit. -/
theorem acceptedLinesAreWellFormed : Obligations.AcceptedLinesAreWellFormed := by
  intro t l h
  unfold parseLine at h
  split at h
  · exact wellFormed_of_lineOfTokens h
  · cases h

/-! ## Comments -/

/-- A comment after a line that falls into tokens changes none of them, wherever the reader stands at its beginning. -/
theorem tokens_comment (comment : Text) {t : Text} {r : Reading} {ts : List Token} (h : tokens r t = .ok ts) :
    tokens r (t ++ ';' :: comment) = .ok ts := by
  induction t generalizing r ts with
  | nil =>
    cases r with
    | between => exact h
    | inWord b => exact h
    | inQuote b => cases h
  | cons c rest ih =>
    have after {r : Reading} {f : List Token → List Token} (h : (tokens r rest).map f = .ok ts) :
        (tokens r (rest ++ ';' :: comment)).map f = .ok ts := by
      obtain ⟨ts', hts', rfl⟩ := exists_of_map_eq_ok h
      rw [ih hts']
      rfl
    cases r with
    | inQuote b =>
      rw [List.cons_append]
      rw [tokens] at h ⊢
      split_ifs at h ⊢
      · exact after h
      · exact ih h
    | between =>
      rw [List.cons_append]
      rw [tokens] at h ⊢
      split_ifs at h ⊢
      · exact ih h
      · exact h
      · exact ih h
      · exact after h
      · exact ih h
    | inWord b =>
      rw [List.cons_append]
      rw [tokens] at h ⊢
      split_ifs at h ⊢
      · exact ih h
      · exact h
      · exact after h
      · exact after h
      · exact after h

/-- Settles O49: the line and its comment fall into the same tokens. -/
theorem commentsChangeNothing : Obligations.CommentsChangeNothing := by
  intro t comment l h
  cases ht : tokens .between t with
  | error e =>
    rw [parseLine, ht] at h
    cases h
  | ok ts =>
    rw [parseLine_of_tokens ht] at h
    rw [parseLine_of_tokens (tokens_comment comment ht), h]

end Sys2Proof.Machine

/-! PROOFS. 30_encoding.md R39: how the record of an `encode` line is read. -/

namespace Sys2Proof.Machine

/-! ## Number literals of a record -/

/-- A number with a decimal point is no integer literal: the point is no digit. -/
theorem naturalLiteral_of_point {whole fraction : Text} (hw : decimalNumeral whole) (hf : decimalNumeral fraction) :
    naturalLiteral (whole ++ '.' :: fraction) = none := by
  have noX : 'x' ∉ whole ++ '.' :: fraction := by
    have inWhole : 'x' ∉ whole := not_mem_of_decimalNumeral hw (by decide)
    have inFraction : 'x' ∉ fraction := not_mem_of_decimalNumeral hf (by decide)
    simp [inWhole, inFraction]
  rw [naturalLiteral_of_no_x noX, ← Option.not_isSome_iff_eq_none]
  intro value
  have digit := (numeralValue_isSome value).2 '.' (by simp)
  exact absurd digit (by decide)

theorem decimalNumeral_append {a b : Text} (ha : decimalNumeral a) (hb : decimalNumeral b) : decimalNumeral (a ++ b) := by
  obtain ⟨hne, ha⟩ := ha
  obtain ⟨-, hb⟩ := hb
  refine ⟨by simp [hne], fun c hc => ?_⟩
  rcases List.mem_append.1 hc with hc | hc
  · exact ha c hc
  · exact hb c hc

/-- A number literal is read as the number that it spells. -/
theorem unsignedNumber_of_spellsNumber {t : Text} {q : Rat} (h : spellsNumber t q) : unsignedNumber t = some q := by
  rcases h with ⟨n, hn, rfl⟩ | ⟨whole, fraction, rfl, hw, hf, rfl⟩
  · simp only [unsignedNumber, naturalLiteral_of_spellsInteger hn]
  · have plain : ∀ c ∈ whole, (c != '.') = true := fun c hc =>
      bne_iff_ne.2 (ne_of_mem_of_not_mem hc (not_mem_of_decimalNumeral hw (by decide)))
    have before : (whole ++ '.' :: fraction).takeWhile (· != '.') = whole := by
      rw [List.takeWhile_append_of_pos plain]
      simp
    have after : (whole ++ '.' :: fraction).dropWhile (· != '.') = '.' :: fraction := by
      rw [List.dropWhile_append_of_pos plain]
      simp
    simp only [unsignedNumber, naturalLiteral_of_point hw hf, before, after, List.drop_one, List.tail_cons,
      numeralValue_of_decimalNumeral hw, numeralValue_of_decimalNumeral hf,
      numeralValue_of_decimalNumeral (decimalNumeral_append hw hf), Option.map_some, Rat.mkRat_eq_div]
    push_cast
    rfl

theorem isWord_of_spellsNumber {t : Text} {q : Rat} (h : spellsNumber t q) : isWord t := by
  rcases h with ⟨n, hn, -⟩ | ⟨whole, fraction, rfl, hw, hf, -⟩
  · exact isWord_of_spellsInteger hn
  · obtain ⟨hne, hw⟩ := isWord_of_decimalNumeral hw
    obtain ⟨-, hf⟩ := isWord_of_decimalNumeral hf
    refine ⟨by simp [hne], fun c hc => ?_⟩
    rcases List.mem_append.1 hc with hc | hc
    · exact hw c hc
    · rcases List.mem_cons.1 hc with rfl | hc
      · rfl
      · exact hf c hc

theorem not_mem_minus_of_spellsNumber {t : Text} {q : Rat} (h : spellsNumber t q) : '-' ∉ t := by
  have noDecimal : '-' ∉ "0123456789".toList := by decide
  have noHex : ¬ isHexDigit '-' := by decide
  rcases h with ⟨n, ⟨decimal, -⟩ | ⟨digits, rfl, -, hdigits, -⟩, -⟩ | ⟨whole, fraction, rfl, hw, hf, -⟩
  · exact not_mem_of_decimalNumeral decimal noDecimal
  · have inDigits : '-' ∉ digits := fun hmem => noHex (hdigits '-' hmem)
    simp [inDigits]
  · simp [not_mem_of_decimalNumeral hw noDecimal, not_mem_of_decimalNumeral hf noDecimal]

/-- A number literal has no sign of its own, so it is read as the number that it spells. -/
theorem recordNumber_of_spellsNumber {t : Text} {q : Rat} (h : spellsNumber t q) : recordNumber t = .ok (.number q) := by
  have value := unsignedNumber_of_spellsNumber h
  have unsigned := not_mem_minus_of_spellsNumber h
  unfold recordNumber
  split
  · simp at unsigned
  · rw [value]

theorem recordNumber_of_negative {u : Text} {q : Rat} (h : spellsNumber u q) : recordNumber ('-' :: u) = .ok (.number (-q)) := by
  simp only [recordNumber, unsignedNumber_of_spellsNumber h]

/-! ## Values and their tokens -/

/-- `v`, the value written for a field, is read as the one token `tok`, and that token as the host value `x`. -/
inductive ReadsAs : Text → Token → HostValue → Prop where
  | number {v : Text} {x : HostValue} (word : isWord v) (value : recordNumber v = .ok x) : ReadsAs v (.word v) x
  | quoted {u : Text} (plain : '"' ∉ u) : ReadsAs ('"' :: (u ++ ['"'])) (.quoted u) (.text u)

theorem readsAs_of_spellsValue {v : Text} {x : HostValue} (h : spellsValue v x) : ∃ tok, ReadsAs v tok x := by
  rcases h with ⟨q, hq, rfl⟩ | ⟨u, q, rfl, hq, rfl⟩ | ⟨u, rfl, hu, rfl⟩
  · exact ⟨_, .number (isWord_of_spellsNumber hq) (recordNumber_of_spellsNumber hq)⟩
  · obtain ⟨-, chars⟩ := isWord_of_spellsNumber hq
    exact ⟨_, .number ⟨List.cons_ne_nil _ _, List.forall_mem_cons.2 ⟨rfl, chars⟩⟩ (recordNumber_of_negative hq)⟩
  · exact ⟨_, .quoted hu⟩

/-- A value before a punctuation mark. -/
theorem tokens_value_before {v : Text} {tok : Token} {x : HostValue} (hv : ReadsAs v tok x) {c : Char} {rest : Text}
    {ts : List Token} (hc : isWordChar c = false) (h : tokens .between (c :: rest) = .ok ts) :
    tokens .between (v ++ c :: rest) = .ok (tok :: ts) := by
  cases hv with
  | number word value => exact tokens_word_before word hc h
  | @quoted u plain =>
    have text : '"' :: (u ++ ['"']) ++ c :: rest = '"' :: (u ++ '"' :: c :: rest) := by simp
    rw [text, tokens_quoted_before plain h]

theorem fieldNamed_fieldText (F : FieldName) : fieldNamed (fieldText F) = some F := by
  cases F <;> rfl

theorem isWord_fieldText (F : FieldName) : isWord (fieldText F) := by
  cases F <;> exact isWord_of_all rfl

/-- A field with its value and a punctuation mark after it. -/
theorem tokens_item_before (F : FieldName) {v : Text} {tok : Token} {x : HostValue} (hv : ReadsAs v tok x) {c : Char}
    {rest : Text} {ts : List Token} (hc : isWordChar c = false) (h : tokens .between (c :: rest) = .ok ts) :
    tokens .between (fieldText F ++ ": ".toList ++ v ++ c :: rest) = .ok (.word (fieldText F) :: .mark ':' :: tok :: ts) := by
  have text : fieldText F ++ ": ".toList ++ v ++ c :: rest = fieldText F ++ ':' :: ' ' :: (v ++ c :: rest) := by simp
  rw [text]
  refine tokens_word_before (isWord_fieldText F) rfl (tokens_mark_before rfl ?_)
  rw [tokens_space]
  exact tokens_value_before hv hc h

/-! ## Records -/

/-- The record with one more field, which it does not name yet. -/
theorem addRecordField_of_missing {f : HostFields} {F : FieldName} (hF : getHostField f F = .missing) (x : HostValue) :
    addRecordField f (fieldText F) x = .ok (setHostField f F x) := by
  simp only [addRecordField, fieldNamed_fieldText, hF, if_true]

/-- A field before a comma is set, and the record goes on. -/
theorem recordFields_comma {f : HostFields} {F : FieldName} (hF : getHostField f F = .missing) {v : Text} {tok : Token}
    {x : HostValue} (hv : ReadsAs v tok x) (rest : List Token) :
    recordFields f (.word (fieldText F) :: .mark ':' :: tok :: .mark ',' :: rest) = recordFields (setHostField f F x) rest := by
  cases hv with
  | number word value => simp [recordFields, value, addRecordField_of_missing hF]
  | quoted plain => simp [recordFields, addRecordField_of_missing hF]

/-- A field before the closing brace is set, and the record ends. -/
theorem recordFields_close {f : HostFields} {F : FieldName} (hF : getHostField f F = .missing) {v : Text} {tok : Token}
    {x : HostValue} (hv : ReadsAs v tok x) :
    recordFields f [.word (fieldText F), .mark ':', tok, .mark (Char.ofNat 125), .mark ')'] = .ok (setHostField f F x) := by
  have close : Char.ofNat 125 ≠ ',' := by decide
  cases hv with
  | number word value => simp [recordFields, value, addRecordField_of_missing hF, close]
  | quoted plain => simp [recordFields, addRecordField_of_missing hF, close]

/-- The fields with each of a record's items set. -/
def withItems (f : HostFields) : List (FieldName × Text × HostValue) → HostFields
  | [] => f
  | (F, _, x) :: rest => withItems (setHostField f F x) rest

theorem getHostField_withItems_of_not_mem {f : HostFields} {items : List (FieldName × Text × HostValue)} {F : FieldName}
    (h : F ∉ items.map fun x => x.1) : getHostField (withItems f items) F = getHostField f F := by
  induction items generalizing f with
  | nil => rfl
  | cons item items ih =>
    obtain ⟨G, v, x⟩ := item
    rw [List.map_cons, List.mem_cons, not_or] at h
    obtain ⟨hne, hrest⟩ := h
    rw [withItems, ih hrest, getHostField_setHostField, if_neg hne]

theorem getHostField_withItems_of_mem {f : HostFields} {items : List (FieldName × Text × HostValue)}
    (hnodup : (items.map fun x => x.1).Nodup) : ∀ x ∈ items, getHostField (withItems f items) x.1 = x.2.2 := by
  induction items generalizing f with
  | nil => exact nofun
  | cons item items ih =>
    obtain ⟨F, v, x⟩ := item
    rw [List.map_cons, List.nodup_cons] at hnodup
    obtain ⟨fresh, hnodup⟩ := hnodup
    refine List.forall_mem_cons.2 ⟨?_, ih hnodup⟩
    rw [withItems, getHostField_withItems_of_not_mem fresh, getHostField_setHostField, if_pos rfl]

/-- A record that names a field is read as its items, onto any fields that do not name one of them yet. -/
theorem record_read {item : FieldName × Text × HostValue} {items : List (FieldName × Text × HostValue)}
    (hnodup : ((item :: items).map fun x => x.1).Nodup) (hspells : ∀ x ∈ item :: items, spellsValue x.2.1 x.2.2) :
    ∃ name ts, tokens .between (recordText ((item :: items).map fun x => (x.1, x.2.1)) ++ [Char.ofNat 125, ')']) =
        .ok (.word name :: ts) ∧
      ∀ f, (∀ F ∈ (item :: items).map (fun x => x.1), getHostField f F = .missing) →
        recordFields f (.word name :: ts) = .ok (withItems f (item :: items)) := by
  induction items generalizing item with
  | nil =>
    obtain ⟨F, v, x⟩ := item
    obtain ⟨tok, hv⟩ := readsAs_of_spellsValue (hspells (F, v, x) (by simp))
    have closing : tokens .between [Char.ofNat 125, ')'] = .ok [.mark (Char.ofNat 125), .mark ')'] := rfl
    exact ⟨_, _, tokens_item_before F hv rfl closing, fun f missing => recordFields_close (missing F (by simp)) hv⟩
  | cons item' items ih =>
    obtain ⟨F, v, x⟩ := item
    obtain ⟨tok, hv⟩ := readsAs_of_spellsValue (hspells (F, v, x) (by simp))
    rw [List.map_cons, List.nodup_cons] at hnodup
    obtain ⟨fresh, hnodup⟩ := hnodup
    obtain ⟨name, ts, hts, hread⟩ := ih hnodup fun x hx => hspells x (by simp [hx])
    rw [← tokens_space] at hts
    have text : recordText (((F, v, x) :: item' :: items).map fun x => (x.1, x.2.1)) ++ [Char.ofNat 125, ')'] =
        fieldText F ++ ": ".toList ++ v ++ ',' :: ' ' ::
          (recordText ((item' :: items).map fun x => (x.1, x.2.1)) ++ [Char.ofNat 125, ')']) := by
      simp [recordText]
    have line := tokens_item_before F hv rfl (tokens_mark_before (c := ',') rfl hts)
    rw [← text] at line
    refine ⟨_, _, line, fun f missing => ?_⟩
    rw [recordFields_comma (missing F (by simp)) hv, hread]
    · rfl
    · intro G hG
      have hne : G ≠ F := fun same => fresh (same ▸ hG)
      rw [getHostField_setHostField, if_neg hne]
      exact missing G (List.mem_cons_of_mem _ hG)

theorem getHostField_emptyRecord (F : FieldName) : getHostField emptyRecord F = .missing := by
  cases F <;> rfl

/-- An `encode` call of a record that names a field, after its opening brace. -/
theorem callLine_encode (name : Text) (ts : List Token) :
    callLine "encode".toList (.mark (Char.ofNat 123) :: .word name :: ts) =
      (recordFields emptyRecord (.word name :: ts)).map .encodeText := rfl

/-- The opening of an `encode` line. -/
theorem tokens_encode_call {rest : Text} {ts : List Token} (h : tokens .between rest = .ok ts) :
    tokens .between ("encode(".toList ++ [Char.ofNat 123] ++ rest) =
      .ok (.word "encode".toList :: .mark '(' :: .mark (Char.ofNat 123) :: ts) := by
  have text : "encode(".toList ++ [Char.ofNat 123] ++ rest = "encode".toList ++ '(' :: Char.ofNat 123 :: rest := by simp
  rw [text]
  exact tokens_word_before (isWord_of_all rfl) rfl (tokens_mark_before rfl (tokens_mark_before rfl h))

/-- An `encode` line is read as the record that names its items and nothing else. -/
theorem parseLine_encodeCallText {items : List (FieldName × Text × HostValue)} (hnodup : (items.map fun x => x.1).Nodup)
    (hspells : ∀ x ∈ items, spellsValue x.2.1 x.2.2) :
    parseLine (encodeCallText (items.map fun x => (x.1, x.2.1))) = .ok (some (.encodeText (withItems emptyRecord items))) := by
  have line : encodeCallText (items.map fun x => (x.1, x.2.1)) = "encode(".toList ++ [Char.ofNat 123] ++
      (recordText (items.map fun x => (x.1, x.2.1)) ++ [Char.ofNat 125, ')']) := List.append_assoc _ _ _
  rw [line]
  cases items with
  | nil =>
    have closing : tokens .between [Char.ofNat 125, ')'] = .ok [.mark (Char.ofNat 125), .mark ')'] := rfl
    rw [List.map_nil, recordText, List.nil_append, parseLine_of_tokens (tokens_encode_call closing), lineOfTokens_call]
    rfl
  | cons item items =>
    obtain ⟨name, ts, hts, hread⟩ := record_read hnodup hspells
    rw [parseLine_of_tokens (tokens_encode_call hts), lineOfTokens_call, callLine_encode,
      hread emptyRecord fun F _ => getHostField_emptyRecord F]
    rfl

/-- Settles O48: the record holds the value of each item, and nothing but missing fields besides. -/
theorem recordLinesAreReadAsWritten : Obligations.RecordLinesAreReadAsWritten := by
  intro items hnodup hspells
  refine ⟨withItems emptyRecord items, parseLine_encodeCallText hnodup hspells, getHostField_withItems_of_mem hnodup,
    fun F hF => ?_⟩
  rw [getHostField_withItems_of_not_mem hF, getHostField_emptyRecord]

end Sys2Proof.Machine

/-! PROOFS. 20_memory.md R25: a word as a platform stores it. -/

namespace Sys2Proof.Machine

/-- The four bytes of a word side by side, from bits 31:24 down, are the word. -/
theorem append_extractLsb'_bytes (w : RegWord) :
    (w.extractLsb' 24 8 ++ w.extractLsb' 16 8 ++ w.extractLsb' 8 8 ++ w.extractLsb' 0 8 : RegWord) = w := by
  refine BitVec.eq_of_getLsbD_eq fun i hi => ?_
  simp only [BitVec.getLsbD_append, BitVec.getLsbD_extractLsb']
  split_ifs <;> · rw [decide_eq_true (by omega), Bool.true_and]; congr 1; omega

/-- Settles O46: the bytes of either order, put together again, are the four bytes of the word in their places. -/
theorem storedWordReadsBack : Obligations.StoredWordReadsBack := by
  refine fun w => ⟨fun order => ?_, rfl⟩
  cases order with
  | little => exact ⟨_, _, _, _, rfl, append_extractLsb'_bytes w⟩
  | big => exact ⟨_, _, _, _, rfl, append_extractLsb'_bytes w⟩

end Sys2Proof.Machine
